-- ==== Sys2Proof/Word.lean ====
section
/-!
DEFINITION. The word, the register index and the encoded fields' widths (spec/00_scope.md R5, R8).
-/
namespace Sys2Proof

/-- A register's contents, an immediate operand, or an encoded instruction word: 32 bits, bit 31 the
most significant (00_scope.md R5, R8). -/
abbrev Word := BitVec 32

/-- A register index, 0 to 7, as the 3-bit field the port and the word carry (10_state.md R23). -/
abbrev RegIdx := BitVec 3

/-- The side register of `mul` and `div`, register 7 (10_state.md R11). -/
abbrev sideReg : RegIdx := 7#3

end Sys2Proof
end

