-- ==== Sys2Proof/Machine/Arith.lean ====
section
/-!
DEFINITION. The conversions of 00_scope.md section 6: a 32-bit word read as a signed number, and an integer
reduced to 32 or 64 bits. Operations convert to integers, compute exactly and narrow at the end.
-/
namespace Sys2Proof.Machine

/-- `s32(v)`: the two's-complement value of a word (00_scope.md section 6). -/
def s32 (v : Word) : Int := v.toInt

/-- `wrap32(z)`: the word whose unsigned value is z modulo 2^32 (00_scope.md section 6). -/
def wrap32 (z : Int) : Word := BitVec.ofInt 32 z

/-- `wrap64(z)`: likewise, 64 bits. -/
def wrap64 (z : Int) : BitVec 64 := BitVec.ofInt 64 z

/-- `tdiv(a, b)`: the quotient truncated toward zero (00_scope.md section 6). -/
def tdiv (a b : Int) : Int := Int.tdiv a b

/-- `trem(a, b) = a - tdiv(a, b) * b` (00_scope.md section 6). -/
def trem (a b : Int) : Int := a - tdiv a b * b

/-- A literal's value lies from -2147483648 to 2147483647 (30_encoding.md R57). -/
def fitsWord (z : Int) : Bool := decide (-2147483648 ≤ z) && decide (z ≤ 2147483647)

end Sys2Proof.Machine
end

