-- ==== Sys2Proof/Config.lean ====
section
/-!
DEFINITION. The four parameters that 00_scope.md R5 leaves OPEN, each a closed set of the choices the
spec gives, and the defaults it recommends. A run carries one `Config`; no step changes it.
-/
namespace Sys2Proof

/-- IMM_RANGE_POLICY: a decimal literal outside -2147483648 to 2147483647 (30_encoding.md R57, decision D4). -/
inductive ImmRangePolicy where
  | reject
  | wrap
deriving DecidableEq, Repr

/-- EXTRA_TOKEN_POLICY: tokens after the operand token (30_encoding.md R58, decision D16). -/
inductive ExtraTokenPolicy where
  | reject
  | ignore
deriving DecidableEq, Repr

/-- PLUS_SIGN_POLICY: a leading `+` on an immediate literal (30_encoding.md R57, decision D18). -/
inductive PlusSignPolicy where
  | reject
  | accept
deriving DecidableEq, Repr

/-- DIV_OVERFLOW: the division -2147483648 / -1 (42_mul_div.md R84, decision D9). -/
inductive DivOverflowPolicy where
  | wrap
  | fault
deriving DecidableEq, Repr

/-- The parameters a model takes as arguments (00_scope.md R5; the end of 92_eei_decisions.md). -/
structure Config where
  immRange : ImmRangePolicy
  extraToken : ExtraTokenPolicy
  plusSign : PlusSignPolicy
  divOverflow : DivOverflowPolicy
deriving DecidableEq, Repr

/-- The default 00_scope.md R5 recommends for each OPEN parameter. DESIGN CHOICE for the state after
reset, unsafe (log 2). -/
def Config.recommended : Config :=
  { immRange := .reject, extraToken := .reject, plusSign := .reject, divOverflow := .wrap }

end Sys2Proof
end

