-- ==== Sys2Proof/Syntax.lean ====
section
/-!
DEFINITION. The instructions: one constructor of `Instr` per row of spec/opcode_table.json, and the
fields of 10_state.md R23 that each of them carries. The immediate is the full 32-bit operand of the
instruction port, not the 16-bit field of the encoded word (00_scope.md R6).
-/
namespace Sys2Proof

/-- The six operations, a closed set (00_scope.md R9). -/
inductive Opcode where
  | endOp
  | mov
  | add
  | sub
  | mul
  | div
deriving DecidableEq, Repr

/-- The second operand: absent, a register reference, or an immediate (10_state.md R23). -/
inductive Operand where
  | none
  | reg (src : RegIdx)
  | imm (value : Word)
deriving DecidableEq, Repr

/-- One constructor per row of spec/opcode_table.json. The last letter is the row's form
(30_encoding.md R41): `N` no operand, `R` register operand, `I` immediate operand, `E` the form of `end`. -/
inductive Instr where
  | endE
  | movN (dst : RegIdx)
  | movR (dst src : RegIdx)
  | movI (dst : RegIdx) (imm : Word)
  | addN (dst : RegIdx)
  | addR (dst src : RegIdx)
  | addI (dst : RegIdx) (imm : Word)
  | subN (dst : RegIdx)
  | subR (dst src : RegIdx)
  | subI (dst : RegIdx) (imm : Word)
  | mulN (dst : RegIdx)
  | mulR (dst src : RegIdx)
  | mulI (dst : RegIdx) (imm : Word)
  | divN (dst : RegIdx)
  | divR (dst src : RegIdx)
  | divI (dst : RegIdx) (imm : Word)
deriving DecidableEq, Repr

/-- The `op` field of an instruction. -/
def Instr.opcode : Instr → Opcode
  | .endE => .endOp
  | .movN _ => .mov
  | .movR _ _ => .mov
  | .movI _ _ => .mov
  | .addN _ => .add
  | .addR _ _ => .add
  | .addI _ _ => .add
  | .subN _ => .sub
  | .subR _ _ => .sub
  | .subI _ _ => .sub
  | .mulN _ => .mul
  | .mulR _ _ => .mul
  | .mulI _ _ => .mul
  | .divN _ => .div
  | .divR _ _ => .div
  | .divI _ _ => .div

/-- The `dst` field; `end` has none ("absent for `end`"), and 0 stands there. -/
def Instr.dst : Instr → RegIdx
  | .endE => 0
  | .movN d => d
  | .movR d _ => d
  | .movI d _ => d
  | .addN d => d
  | .addR d _ => d
  | .addI d _ => d
  | .subN d => d
  | .subR d _ => d
  | .subI d _ => d
  | .mulN d => d
  | .mulR d _ => d
  | .mulI d _ => d
  | .divN d => d
  | .divR d _ => d
  | .divI d _ => d

/-- The `operand` field; `end` has none. -/
def Instr.operand : Instr → Operand
  | .endE => .none
  | .movN _ => .none
  | .movR _ s => .reg s
  | .movI _ v => .imm v
  | .addN _ => .none
  | .addR _ s => .reg s
  | .addI _ v => .imm v
  | .subN _ => .none
  | .subR _ s => .reg s
  | .subI _ v => .imm v
  | .mulN _ => .none
  | .mulR _ s => .reg s
  | .mulI _ v => .imm v
  | .divN _ => .none
  | .divR _ s => .reg s
  | .divI _ v => .imm v

/-- The instruction with the given fields. `dst` and `operand` are ignored for `end` (10_state.md R23). -/
def Instr.ofFields : Opcode → RegIdx → Operand → Instr
  | .endOp, _, _ => .endE
  | .mov, d, .none => .movN d
  | .mov, d, .reg s => .movR d s
  | .mov, d, .imm v => .movI d v
  | .add, d, .none => .addN d
  | .add, d, .reg s => .addR d s
  | .add, d, .imm v => .addI d v
  | .sub, d, .none => .subN d
  | .sub, d, .reg s => .subR d s
  | .sub, d, .imm v => .subI d v
  | .mul, d, .none => .mulN d
  | .mul, d, .reg s => .mulR d s
  | .mul, d, .imm v => .mulI d v
  | .div, d, .none => .divN d
  | .div, d, .reg s => .divR d s
  | .div, d, .imm v => .divI d v

/-- An instruction as the instruction port receives it (10_state.md R23): the opcode is a 4-bit number,
which may be no opcode at all; `text` is the original line, where the front end supplied one. -/
structure PortInstr where
  op : BitVec 4
  dst : RegIdx
  operand : Operand
  text : Option String
deriving DecidableEq, Repr

/-- One element of the instruction sequence `prog`: a line of text before the front end, or the fields at
the port (20_memory.md R31; 10_state.md R26). -/
inductive ProgItem where
  | line (text : String)
  | port (instr : PortInstr)
deriving DecidableEq, Repr

/-- The original text of an element, where there is one (10_state.md R18, R23). -/
def ProgItem.text : ProgItem → Option String
  | .line t => some t
  | .port p => p.text

end Sys2Proof
end

