-- ==== Sys2Proof/Machine/State.lean ====
section
/-!
DEFINITION. The state of the block (10_state.md), the fault record, the outcomes' reasons, and reset.
-/
namespace Sys2Proof.Machine

/-- Sub-kinds of the source's `ParseError` (60_exceptions.md R100). -/
inductive ParseFault where
  /-- The opcode token, or the 4-bit opcode at the port, is none of the six (R102). -/
  | invalidOpcode
  /-- A token in register position is malformed, or its digit is 8 or 9 (R103). -/
  | invalidRegister
  /-- An operand token is neither a register token nor an accepted decimal literal (R104). -/
  | invalidImmediate
  /-- No token, no destination, or extra tokens that the policy rejects (R105). -/
  | malformedLine
deriving DecidableEq, Repr

/-- Sub-kinds of the source's `ArithmeticError` (60_exceptions.md R100). -/
inductive ArithFault where
  /-- `div` with a zero operand value (R101). -/
  | divideByZero
  /-- -2147483648 / -1 under DIV_OVERFLOW = fault only (R115). -/
  | divideOverflow
deriving DecidableEq, Repr

/-- The kind of a fault: its class and sub-kind (60_exceptions.md R100). -/
inductive FaultKind where
  | parseError (k : ParseFault)
  | arithmeticError (k : ArithFault)
deriving DecidableEq, Repr

/-- `Fault(kind, at, text)` of 10_state.md R18: what went wrong, the index of the offending instruction, and its
source text where there is one. -/
structure FaultRecord where
  kind : FaultKind
  atPc : Nat
  text : Option String
deriving DecidableEq, Repr

/-- The state: the tuple of 10_state.md, and two fields of the model's own that carry what the spec makes
parameters of the run (`prog`, log 1; `config`, log 2). No step changes those two. -/
structure State where
  /-- The register file (R10). -/
  x : Vector Word 8
  /-- The index of the next instruction (R14). -/
  pc : Nat
  /-- Accounting, not time (R15). -/
  cycleCount : Nat
  /-- Completed instructions (R16). -/
  instructionCount : Nat
  /-- true is Running, false is Halted (R17). -/
  isRunning : Bool
  /-- The sticky record of a fatal error (R18). -/
  fault : Option FaultRecord
  /-- MODEL's own: the instruction sequence of the run (R26). -/
  prog : List ProgItem
  /-- MODEL's own: the OPEN parameters (00_scope.md R5). -/
  config : Config
deriving DecidableEq, Repr

/-- Why the step function answers no next state: the run has ended, and the spec takes no step then
(40_execution_step.md R60, R69). No instruction's meaning raises one of these. Answering a named stop where the
hardware sits still is safe (log 7). -/
inductive Fault where
  /-- `Halted`: an `end` was executed, the normal end. Raised by the fetch of the next instruction. Safe. -/
  | halted
  /-- `Faulted`: the fault record is set. Raised by the fetch of the next instruction. Safe. -/
  | faulted
  /-- `Exhausted`: the sequence ran out with no `end` executed, a stuck state and not a success. Raised by the
  fetch of the next instruction. Safe. -/
  | exhausted
deriving DecidableEq, Repr

/-- Instructions to which the model gives no meaning. Every instruction has one, so none is raised. -/
inductive Refusal where
  /-- The instruction of that mnemonic is not modelled; raised by no arm. Safe. -/
  | notModelled (mnemonic : String)
deriving DecidableEq, Repr

/-- The state after reset (10_state.md R27): every register, both counters and the pc are 0, the engine is
Running and no fault is recorded. The sequence is empty, since it is supplied from outside (log 3), and the
parameters have the values the spec recommends (log 2). -/
def State.reset : State :=
  { x := Vector.replicate 8 0#32
    pc := 0
    cycleCount := 0
    instructionCount := 0
    isRunning := true
    fault := none
    prog := []
    config := Config.recommended }

end Sys2Proof.Machine
end

