-- ==== Sys2Proof/Machine/Ops.lean ====
section
/-!
DEFINITION. The named operations over the state that the instructions share: register reads and writes, the
completion of a step with its counters and costs, halting, and taking a fault. There is no memory and no
return from a fault (60_exceptions.md R111), so there is no operation for either.
-/
namespace Sys2Proof.Machine

/-- `x[i]`: the current value of a register; no register is hard-wired (10_state.md R10). -/
def State.readReg (s : State) (r : RegIdx) : Word :=
  s.x[r.toNat]'r.isLt

/-- `x[i] <- v`: a write of a whole register (20_memory.md R34). -/
def State.writeReg (s : State) (r : RegIdx) (v : Word) : State :=
  { s with x := s.x.set r.toNat v r.isLt }

/-- The two writes of the mul/div result handler, destination first and side register last, so that the side
result stands when they coincide (42_mul_div.md R82, R85). -/
def State.writePair (s : State) (dst : RegIdx) (lo hi : Word) : State :=
  (s.writeReg dst lo).writeReg sideReg hi

/-- `cost(op)` (40_execution_step.md R65). -/
def cost : Opcode → Nat
  | .endOp => 1
  | .mov => 1
  | .add => 1
  | .sub => 1
  | .mul => 3
  | .div => 4

/-- Actions 4 to 6 of 40_execution_step.md R61: count the instruction, add its cost, advance the pc
(R64, R65, R66). -/
def State.complete (s : State) (op : Opcode) : State :=
  { s with
    instructionCount := s.instructionCount + 1
    cycleCount := s.cycleCount + cost op
    pc := s.pc + 1 }

/-- `isRunning <- false` (43_end.md R90). -/
def State.halt (s : State) : State :=
  { s with isRunning := false }

/-- The source text of the instruction at the pc, where there is one (10_state.md R18; log 12). -/
def State.textAtPc (s : State) : Option String :=
  s.prog[s.pc]?.bind ProgItem.text

/-- Taking a fault, the same for every kind: nothing changes but the fault record, which holds the kind, the pc
and the offending instruction's text (60_exceptions.md R109; 40_execution_step.md R68). -/
def State.raise (s : State) (k : FaultKind) : State :=
  { s with fault := some { kind := k, atPc := s.pc, text := s.textAtPc } }

/-- The numeric code of a fault kind (60_exceptions.md R100, R106). -/
def FaultKind.code : FaultKind → Nat
  | .arithmeticError .divideByZero => 1
  | .parseError .invalidOpcode => 2
  | .parseError .invalidRegister => 3
  | .parseError .invalidImmediate => 4
  | .parseError .malformedLine => 5
  | .arithmeticError .divideOverflow => 6

/-- The state's fault code, 0 for no fault (60_exceptions.md R106). -/
def State.faultCode (s : State) : Nat :=
  match s.fault with
  | none => 0
  | some f => f.kind.code

end Sys2Proof.Machine
end

