-- ==== Sys2Proof/Machine/EndOp.lean ====
section
/-!
DEFINITION. `end`, the one instruction with a system effect (43_end.md R90, R94).
-/
namespace Sys2Proof.Machine

/-- `end`: the engine halts; the instruction is counted and costs 1 like any other (43_end.md R90). -/
def execEnd (s : State) : Host.Outcome State Fault Refusal :=
  .next (s.halt.complete .endOp)

end Sys2Proof.Machine
end

