-- ==== Sys2Proof/Machine/Operands.lean ====
section
/-!
DEFINITION. The operand value (40_execution_step.md R62), the one place where an operand is read.
-/
namespace Sys2Proof.Machine

/-- The operand value: the register's current value, all 32 bits of the immediate, or 0 for an absent operand
(40_execution_step.md R62). -/
def State.operandValue (s : State) : Operand → Word
  | .none => 0#32
  | .reg src => s.readReg src
  | .imm v => v

end Sys2Proof.Machine
end

