-- ==== Sys2Proof/Machine/MovAddSub.lean ====
section
/-!
DEFINITION. `mov`, `add`, `sub` (41_mov_add_sub.md). They set no flag: the block has none (10_state.md R19).
-/
namespace Sys2Proof.Machine

/-- The sum of a destination and an operand, wrapped (41_mov_add_sub.md R71, R73). -/
def addWrap (d v : Word) : Word := wrap32 (s32 d + s32 v)

/-- The difference, destination minus operand, wrapped (41_mov_add_sub.md R72, R73). -/
def subWrap (d v : Word) : Word := wrap32 (s32 d - s32 v)

/-- `mov` with any operand: the operand value goes to the destination (41_mov_add_sub.md R70). -/
def applyMov (dst : RegIdx) (o : Operand) (s : State) : Host.Outcome State Fault Refusal :=
  .next ((s.writeReg dst (s.operandValue o)).complete .mov)

/-- `add` with any operand (41_mov_add_sub.md R71). -/
def applyAdd (dst : RegIdx) (o : Operand) (s : State) : Host.Outcome State Fault Refusal :=
  .next ((s.writeReg dst (addWrap (s.readReg dst) (s.operandValue o))).complete .add)

/-- `sub` with any operand (41_mov_add_sub.md R72). -/
def applySub (dst : RegIdx) (o : Operand) (s : State) : Host.Outcome State Fault Refusal :=
  .next ((s.writeReg dst (subWrap (s.readReg dst) (s.operandValue o))).complete .sub)

/-- `mov dst` (R70): the destination is cleared. -/
def execMovN (dst : RegIdx) (s : State) : Host.Outcome State Fault Refusal := applyMov dst .none s

/-- `mov dst, src` (R70). -/
def execMovR (dst src : RegIdx) (s : State) : Host.Outcome State Fault Refusal := applyMov dst (.reg src) s

/-- `mov dst, imm` (R70). -/
def execMovI (dst : RegIdx) (imm : Word) (s : State) : Host.Outcome State Fault Refusal := applyMov dst (.imm imm) s

/-- `add dst` (R71): adds 0. -/
def execAddN (dst : RegIdx) (s : State) : Host.Outcome State Fault Refusal := applyAdd dst .none s

/-- `add dst, src` (R71). -/
def execAddR (dst src : RegIdx) (s : State) : Host.Outcome State Fault Refusal := applyAdd dst (.reg src) s

/-- `add dst, imm` (R71). -/
def execAddI (dst : RegIdx) (imm : Word) (s : State) : Host.Outcome State Fault Refusal := applyAdd dst (.imm imm) s

/-- `sub dst` (R72): subtracts 0. -/
def execSubN (dst : RegIdx) (s : State) : Host.Outcome State Fault Refusal := applySub dst .none s

/-- `sub dst, src` (R72). -/
def execSubR (dst src : RegIdx) (s : State) : Host.Outcome State Fault Refusal := applySub dst (.reg src) s

/-- `sub dst, imm` (R72). -/
def execSubI (dst : RegIdx) (imm : Word) (s : State) : Host.Outcome State Fault Refusal := applySub dst (.imm imm) s

end Sys2Proof.Machine
end

