-- ==== Sys2Proof/Machine/MulDiv.lean ====
section
/-!
DEFINITION. `mul`, `div` and the 64-bit result handler (42_mul_div.md).
-/
namespace Sys2Proof.Machine

/-- The signed 64-bit product of two words (42_mul_div.md R80). -/
def product (d v : Word) : BitVec 64 := wrap64 (s32 d * s32 v)

/-- Primary result of `mul`: bits 31 to 0 of the product (42_mul_div.md R80, R85). -/
def mulLow (d v : Word) : Word := (product d v).extractLsb' 0 32

/-- Side result of `mul`: bits 63 to 32 of the product (42_mul_div.md R80, R85). -/
def mulHigh (d v : Word) : Word := (product d v).extractLsb' 32 32

/-- Primary result of `div`: the truncating quotient (42_mul_div.md R81, R83). -/
def divQuotient (d v : Word) : Word := wrap32 (tdiv (s32 d) (s32 v))

/-- Side result of `div`: the remainder that belongs to the truncating quotient (42_mul_div.md R81, R83;
decision D10, log 10). -/
def divRemainder (d v : Word) : Word := wrap32 (trem (s32 d) (s32 v))

/-- The fault indication of the result handler for `div`: a zero operand first, then -2147483648 / -1 under
DIV_OVERFLOW = fault (42_mul_div.md R81, R84; 60_exceptions.md R108). -/
def divFault (p : DivOverflowPolicy) (d v : Word) : Option ArithFault :=
  if s32 v = 0 then some .divideByZero
  else if s32 d = -2147483648 ∧ s32 v = -1 ∧ p = .fault then some .divideOverflow
  else none

/-- `mul` with any operand: low word to the destination, then high word to register 7 (42_mul_div.md R80, R82). -/
def applyMul (dst : RegIdx) (o : Operand) (s : State) : Host.Outcome State Fault Refusal :=
  .next ((s.writePair dst (mulLow (s.readReg dst) (s.operandValue o))
    (mulHigh (s.readReg dst) (s.operandValue o))).complete .mul)

/-- `div` with any operand: a fault, or quotient to the destination and then remainder to register 7
(42_mul_div.md R81, R82). -/
def applyDiv (dst : RegIdx) (o : Operand) (s : State) : Host.Outcome State Fault Refusal :=
  match divFault s.config.divOverflow (s.readReg dst) (s.operandValue o) with
  | some k => .next (s.raise (.arithmeticError k))
  | none =>
    .next ((s.writePair dst (divQuotient (s.readReg dst) (s.operandValue o))
      (divRemainder (s.readReg dst) (s.operandValue o))).complete .div)

/-- `mul dst` (R80): multiplies by 0. -/
def execMulN (dst : RegIdx) (s : State) : Host.Outcome State Fault Refusal := applyMul dst .none s

/-- `mul dst, src` (R80). -/
def execMulR (dst src : RegIdx) (s : State) : Host.Outcome State Fault Refusal := applyMul dst (.reg src) s

/-- `mul dst, imm` (R80). -/
def execMulI (dst : RegIdx) (imm : Word) (s : State) : Host.Outcome State Fault Refusal := applyMul dst (.imm imm) s

/-- `div dst` (R81): the operand value is 0, so it always faults. -/
def execDivN (dst : RegIdx) (s : State) : Host.Outcome State Fault Refusal := applyDiv dst .none s

/-- `div dst, src` (R81). -/
def execDivR (dst src : RegIdx) (s : State) : Host.Outcome State Fault Refusal := applyDiv dst (.reg src) s

/-- `div dst, imm` (R81). -/
def execDivI (dst : RegIdx) (imm : Word) (s : State) : Host.Outcome State Fault Refusal := applyDiv dst (.imm imm) s

end Sys2Proof.Machine
end

