-- ==== Sys2Proof/Machine/Dispatch.lean ====
section
/-!
DEFINITION. The meaning of each instruction, one arm per constructor of `Instr` (40_execution_step.md R61,
actions 3 to 6).
-/
namespace Sys2Proof.Machine

def exec (i : Instr) (s : State) : Host.Outcome State Fault Refusal :=
  match i with
  | .endE => Sys2Proof.Machine.execEnd s
  | .movN dst => Sys2Proof.Machine.execMovN dst s
  | .movR dst src => Sys2Proof.Machine.execMovR dst src s
  | .movI dst imm => Sys2Proof.Machine.execMovI dst imm s
  | .addN dst => Sys2Proof.Machine.execAddN dst s
  | .addR dst src => Sys2Proof.Machine.execAddR dst src s
  | .addI dst imm => Sys2Proof.Machine.execAddI dst imm s
  | .subN dst => Sys2Proof.Machine.execSubN dst s
  | .subR dst src => Sys2Proof.Machine.execSubR dst src s
  | .subI dst imm => Sys2Proof.Machine.execSubI dst imm s
  | .mulN dst => Sys2Proof.Machine.execMulN dst s
  | .mulR dst src => Sys2Proof.Machine.execMulR dst src s
  | .mulI dst imm => Sys2Proof.Machine.execMulI dst imm s
  | .divN dst => Sys2Proof.Machine.execDivN dst s
  | .divR dst src => Sys2Proof.Machine.execDivR dst src s
  | .divI dst imm => Sys2Proof.Machine.execDivI dst imm s

end Sys2Proof.Machine
end

