-- ==== Sys2Proof/WellFormed.lean ====
section
/-!
DEFINITION. The checks on instructions. Register indices are 3-bit fields and the immediate is a 32-bit
word, so every `Instr` may be executed as it stands (10_state.md R23); what can be ill-formed is the 4-bit
opcode at the port (60_exceptions.md R102). `Instr.wordFaithful` is a check of another kind: whether the
encoded word, which loses information (30_encoding.md R52), determines the instruction for the model's decoder.
-/
namespace Sys2Proof

/-- An opcode is assigned to the 4-bit value at the port: 0 to 5 (30_encoding.md R42, R53). -/
def PortInstr.wellFormed (p : PortInstr) : Bool :=
  decide (p.op.toNat < 6)

/-- The immediate is the sign extension of its own low 16 bits (30_encoding.md R45: the word keeps only those). -/
def immFaithful (v : Word) : Bool :=
  decide ((v.extractLsb' 0 16).signExtend 32 = v)

/-- The operand is the one the model's decoder picks among those that share a word: no operand rather than
register 0, and an immediate from -32768 to 32767 (DESIGN CHOICE, log 5). -/
def Operand.wordFaithful : Operand → Bool
  | .none => true
  | .reg s => decide (s ≠ 0)
  | .imm v => immFaithful v

/-- The model's decoder gives this instruction back from its word (log 5). It says nothing about execution:
every instruction executes from its fields, faithful or not (00_scope.md R6). -/
def Instr.wordFaithful (i : Instr) : Bool :=
  i.operand.wordFaithful

end Sys2Proof
end

