-- ==== Sys2Proof/Decode.lean ====
section
/-!
DEFINITION. The encoded word. The encoder is hardware (00_scope.md R2): `encode` is 30_encoding.md R49. The
block has no decoder (00_scope.md R6, 30_encoding.md R54): `decode` is the model's own, it refuses by name
every word the encoder cannot produce (R53), and it picks one instruction among those that share a word
(DESIGN CHOICE, log 5). Execution never reads a word.
-/
namespace Sys2Proof

/-- The opcode field's values (30_encoding.md R42). UNVERIFIED numbers, log 16. -/
def Opcode.bits : Opcode → BitVec 4
  | .endOp => 0#4
  | .mov => 1#4
  | .add => 2#4
  | .sub => 3#4
  | .mul => 4#4
  | .div => 5#4

/-- The opcode a 4-bit value stands for; 6 to 15 are assigned to no instruction (30_encoding.md R42, R53). -/
def Opcode.ofBits (b : BitVec 4) : Option Opcode :=
  if b = 0#4 then some .endOp
  else if b = 1#4 then some .mov
  else if b = 2#4 then some .add
  else if b = 3#4 then some .sub
  else if b = 4#4 then some .mul
  else if b = 5#4 then some .div
  else none

/-- Why a word is no instruction (30_encoding.md R53). -/
inductive DecodeError where
  /-- Bits 31 to 28 are 6 to 15. -/
  | unassignedOpcode
  /-- A bit that the form leaves reserved is set. -/
  | reservedBitsSet
deriving DecidableEq, Repr

/-- The model's decoder, total on 32-bit words (30_encoding.md R41, R53; the choice among the instructions
that share a word is log 5: form `N` when the source field is 0, and the sign extension of the 16-bit
immediate field). -/
def decode (w : Word) : Except DecodeError Instr :=
  match Opcode.ofBits (w.extractLsb' 28 4) with
  | none => .error .unassignedOpcode
  | some .endOp => if w = 0 then .ok .endE else .error .reservedBitsSet
  | some op =>
    let d := w.extractLsb' 25 3
    if w.getLsbD 24 then
      if w.extractLsb' 0 8 = 0 then
        .ok (Instr.ofFields op d (.imm ((w.extractLsb' 8 16).signExtend 32)))
      else .error .reservedBitsSet
    else if w.extractLsb' 0 21 = 0 then
      if w.extractLsb' 21 3 = 0 then .ok (Instr.ofFields op d .none)
      else .ok (Instr.ofFields op d (.reg (w.extractLsb' 21 3)))
    else .error .reservedBitsSet

/-- The instruction the decoder reads from a row's bits, numbered as spec/opcode_table.json numbers them: one
32-bit word, which the block never splits into bytes (20_memory.md R32). -/
def decodeTableWord (nbits w : Nat) : Option Instr :=
  if nbits = 32 ∧ w < 2 ^ 32 then
    match decode (BitVec.ofNat 32 w) with
    | .ok i => some i
    | .error _ => none
  else none

/-- The encoder (30_encoding.md R49): opcode in bits 31 to 28, destination in 27 to 25, mode in 24, then the low
16 bits of an immediate in 23 to 8 or a source index in 23 to 21; every other bit is 0. -/
def encodeFields (op : Opcode) (dst : RegIdx) (operand : Operand) : Word :=
  match op with
  | .endOp => 0#32
  | .mov | .add | .sub | .mul | .div =>
    match operand with
    | .none => op.bits ++ dst ++ 0#1 ++ 0#3 ++ 0#21
    | .reg src => op.bits ++ dst ++ 0#1 ++ src ++ 0#21
    | .imm v => op.bits ++ dst ++ 1#1 ++ v.extractLsb' 0 16 ++ 0#8

/-- The word of an instruction (30_encoding.md R49). -/
def encode (i : Instr) : Word :=
  encodeFields i.opcode i.dst i.operand

/-- Membership in the set 30_encoding.md R54 calls `inverse(w)`, written from that rule's own case split; empty
for a word outside the encoder's range (R53). -/
def inverseHas (w : Word) (i : Instr) : Bool :=
  if w.extractLsb' 28 4 = 0 then
    decide (w = 0 ∧ i = .endE)
  else
    decide (i.opcode ≠ .endOp ∧ i.opcode.bits = w.extractLsb' 28 4 ∧ i.dst = w.extractLsb' 25 3) &&
    (if w.getLsbD 24 then
      match i.operand with
      | .imm v => decide (w.extractLsb' 0 8 = 0 ∧ v.extractLsb' 0 16 = w.extractLsb' 8 16)
      | .none => false
      | .reg _ => false
    else
      match i.operand with
      | .imm _ => false
      | .none => decide (w.extractLsb' 0 24 = 0)
      | .reg s => decide (w.extractLsb' 0 21 = 0 ∧ s = w.extractLsb' 21 3))

/-- A row of the opcode map: the word matches when `word AND mask = pattern` (30_encoding.md section 4). -/
structure OpcodeRow where
  mnemonic : String
  pattern : Word
  mask : Word
deriving DecidableEq, Repr

/-- The three rows of an operation with the opcode value `b` (30_encoding.md section 4). -/
def operationRows (mnemonic : String) (b : BitVec 4) : List OpcodeRow :=
  [ { mnemonic := mnemonic, pattern := b ++ 0x0000000#28, mask := 0xF1FFFFFF#32 },
    { mnemonic := mnemonic, pattern := b ++ 0x0000000#28, mask := 0xF11FFFFF#32 },
    { mnemonic := mnemonic, pattern := b ++ 0x1000000#28, mask := 0xF10000FF#32 } ]

/-- The sixteen rows of the opcode map (30_encoding.md section 4, spec/opcode_table.json). -/
def opcodeRows : List OpcodeRow :=
  { mnemonic := "end", pattern := 0x00000000#32, mask := 0xFFFFFFFF#32 } ::
    (operationRows "mov" 1#4 ++ operationRows "add" 2#4 ++ operationRows "sub" 3#4 ++
      operationRows "mul" 4#4 ++ operationRows "div" 5#4)

/-- The word matches some row of the opcode map (30_encoding.md R53). -/
def matchesRow (w : Word) : Bool :=
  opcodeRows.any fun r => decide (w &&& r.mask = r.pattern)

end Sys2Proof
end

