-- ==== Sys2Proof/Machine/FrontEnd.lean ====
section
/-!
DEFINITION. From an element of the instruction sequence to an instruction or a parse fault: the textual front
end (30_encoding.md R55 to R59), the instruction port (10_state.md R23), and, beside the parser, the canonical
spelling of an instruction (R59).
-/
namespace Sys2Proof.Machine

/-- A token of a line. -/
abbrev Token := List Char

/-- Whitespace is a space or a tab (30_encoding.md R55, decision D18). -/
def isBlank (c : Char) : Bool := c = ' ' || c = '\t'

/-- A token in front of a list of tokens, if it has any character. -/
def consToken (t : Token) (ts : List Token) : List Token :=
  if t = [] then ts else t :: ts

/-- The token at the start of a text (empty if a blank stands there) and the tokens after it. -/
def splitTokens : List Char → Token × List Token
  | [] => ([], [])
  | c :: cs =>
    let r := splitTokens cs
    if isBlank c then ([], consToken r.1 r.2) else (c :: r.1, r.2)

/-- The tokens of a line: runs of blanks separate them, and blanks at either end are ignored
(30_encoding.md R55). -/
def tokens (cs : List Char) : List Token :=
  let r := splitTokens cs
  consToken r.1 r.2

/-- The lower-case spelling of an operation's mnemonic. -/
def mnemonicChars : Opcode → List Char
  | .endOp => ['e', 'n', 'd']
  | .mov => ['m', 'o', 'v']
  | .add => ['a', 'd', 'd']
  | .sub => ['s', 'u', 'b']
  | .mul => ['m', 'u', 'l']
  | .div => ['d', 'i', 'v']

/-- The opcode a token names, in any letter case (30_encoding.md R55; case of the letters a to z, log 11). -/
def opcodeOfToken (t : Token) : Option Opcode :=
  [Opcode.endOp, .mov, .add, .sub, .mul, .div].find? fun op => mnemonicChars op = t.map Char.toLower

/-- The letter of a register token, in either case (30_encoding.md R56). -/
def isRegLetter (c : Char) : Bool := c = 'r' || c = 'R'

/-- A register digit: 0 to 7; 8 and 9 name no register (30_encoding.md R56, decision D14). -/
def regOfDigit (c : Char) : Option RegIdx :=
  if '0' ≤ c ∧ c ≤ '7' then some (BitVec.ofNat 3 (c.toNat - 48)) else none

/-- A register token: the letter, one digit, then at most one comma or colon (30_encoding.md R56). -/
def parseReg : Token → Option RegIdx
  | [l, d] => if isRegLetter l then regOfDigit d else none
  | [l, d, p] => if isRegLetter l && (p = ',' || p = ':') then regOfDigit d else none
  | _ => none

/-- The value of one or more decimal digits (30_encoding.md R57). -/
def digitsValue (t : Token) : Option Nat :=
  if t ≠ [] ∧ t.all Char.isDigit = true then some (Nat.ofDigitChars 10 t 0) else none

/-- The integer a literal denotes: digits, digits after a minus sign, or, where PLUS_SIGN_POLICY accepts it,
digits after a plus sign (30_encoding.md R57). -/
def literalValue (p : PlusSignPolicy) : Token → Option Int
  | '-' :: ds => (digitsValue ds).map fun n : Nat => -(n : Int)
  | '+' :: ds =>
    match p with
    | .accept => (digitsValue ds).map fun n : Nat => (n : Int)
    | .reject => none
  | ds => (digitsValue ds).map fun n : Nat => (n : Int)

/-- An immediate token: a literal in the range of a word, or one wrapped into it where IMM_RANGE_POLICY says so
(30_encoding.md R57, decision D4). -/
def parseImm (cfg : Config) (t : Token) : Option Word :=
  match literalValue cfg.plusSign t with
  | none => none
  | some z =>
    if fitsWord z then some (wrap32 z)
    else match cfg.immRange with
      | .wrap => some (wrap32 z)
      | .reject => none

/-- The token begins with `r` or `R` (30_encoding.md R57). -/
def startsWithR : Token → Bool
  | c :: _ => isRegLetter c
  | [] => false

/-- The operand token (30_encoding.md R57). -/
def parseOperand (cfg : Config) (t : Token) : Except ParseFault Operand :=
  if startsWithR t then
    match parseReg t with
    | some r => .ok (.reg r)
    | none => .error .invalidRegister
  else
    match parseImm cfg t with
    | some v => .ok (.imm v)
    | none => .error .invalidImmediate

/-- The tokens after the opcode token of a line that is not `end`: a destination, an optional operand, and
extra tokens as EXTRA_TOKEN_POLICY says (30_encoding.md R56 to R58); faults are found from left to right
(60_exceptions.md R108). -/
def parseFields (cfg : Config) (op : Opcode) : List Token → Except ParseFault Instr
  | [] => .error .malformedLine
  | d :: rest =>
    match parseReg d with
    | none => .error .invalidRegister
    | some dst =>
      match rest with
      | [] => .ok (Instr.ofFields op dst .none)
      | t :: extra =>
        match parseOperand cfg t with
        | .error e => .error e
        | .ok o =>
          if extra = [] ∨ cfg.extraToken = .ignore then .ok (Instr.ofFields op dst o)
          else .error .malformedLine

/-- The tokens of a line; nothing after the opcode token `end` is examined (30_encoding.md R55, decision D15). -/
def parseTokens (cfg : Config) : List Token → Except ParseFault Instr
  | [] => .error .malformedLine
  | t :: rest =>
    match opcodeOfToken t with
    | none => .error .invalidOpcode
    | some .endOp => .ok .endE
    | some op => parseFields cfg op rest

/-- A line as characters. -/
def parseChars (cfg : Config) (cs : List Char) : Except ParseFault Instr :=
  parseTokens cfg (tokens cs)

/-- The front end: one line of text to an instruction or a parse fault (30_encoding.md R55 to R59). -/
def parseLine (cfg : Config) (line : String) : Except ParseFault Instr :=
  parseChars cfg line.toList

/-- The instruction port: a 4-bit opcode of 6 to 15 is a fault; `dst` and `operand` are ignored for `end`
(10_state.md R23; 60_exceptions.md R102). -/
def acceptPort (p : PortInstr) : Except ParseFault Instr :=
  match Opcode.ofBits p.op with
  | none => .error .invalidOpcode
  | some op => .ok (Instr.ofFields op p.dst p.operand)

/-- Action 1 of a step (40_execution_step.md R61): parse a line, or check the opcode at the port. -/
def accept (cfg : Config) : ProgItem → Except ParseFault Instr
  | .line t => parseLine cfg t
  | .port p => acceptPort p

/-- An instruction as the port carries it, with no text (10_state.md R23). -/
def portOf (i : Instr) : PortInstr :=
  { op := i.opcode.bits, dst := i.dst, operand := i.operand, text := none }

/-- The register token without punctuation: `r` and the digit (30_encoding.md R56). -/
def regChars (r : RegIdx) : List Char :=
  ['r', Char.ofNat (48 + r.toNat)]

/-- A decimal literal: a minus sign for a negative number, then digits (30_encoding.md R57, R59). -/
def literalChars (z : Int) : List Char :=
  if z < 0 then '-' :: Nat.toDigits 10 z.natAbs else Nat.toDigits 10 z.natAbs

/-- The operand as canonically written, after the comma of the destination. -/
def operandChars : Operand → List Char
  | .none => []
  | .reg r => ',' :: ' ' :: regChars r
  | .imm v => ',' :: ' ' :: literalChars (s32 v)

/-- The canonical spelling of an instruction as characters (30_encoding.md R59). -/
def canonicalChars (i : Instr) : List Char :=
  match i.opcode with
  | .endOp => mnemonicChars .endOp
  | .mov | .add | .sub | .mul | .div =>
    mnemonicChars i.opcode ++ ' ' :: (regChars i.dst ++ operandChars i.operand)

/-- The canonical spelling: lower-case mnemonic, one space, `r<d>,`, one space, the operand
(30_encoding.md R59). -/
def canonicalLine (i : Instr) : String :=
  String.ofList (canonicalChars i)

end Sys2Proof.Machine
end

