-- ==== Sys2Proof/Machine/Fetch.lean ====
section
/-!
DEFINITION. When a step is taken and what it fetches (40_execution_step.md R60), and how a host places an
instruction where the next step fetches it (log 4).
-/
namespace Sys2Proof.Machine

/-- The next element of the sequence, or the named end of the run: a step is taken exactly when the engine is
Running, no fault is recorded and the pc is inside the sequence (40_execution_step.md R60, R69). -/
def State.fetch (s : State) : Except Fault ProgItem :=
  if s.isRunning then
    match s.fault with
    | some _ => .error .faulted
    | none =>
      match s.prog[s.pc]? with
      | some item => .ok item
      | none => .error .exhausted
  else .error .halted

/-- The first n elements, filled up to n with `end` elements where there are fewer (log 4). -/
def padTo (n : Nat) (l : List ProgItem) : List ProgItem :=
  l.take n ++ List.replicate (n - l.length) (.port (portOf .endE))

/-- The state in which the next step fetches the given element, and no element when there is none (log 4). -/
def State.placeNext (s : State) (item : Option ProgItem) : State :=
  match item with
  | some e =>
    { s with prog := padTo s.pc s.prog ++ e :: s.prog.drop (s.pc + 1), isRunning := true, fault := none }
  | none => { s with prog := s.prog.take s.pc, isRunning := true, fault := none }

/-- The element a host supplies for the word of an opcode-table row: the decoded instruction's fields at the
port (log 4, log 5). -/
def itemOfTableWord (nbits w : Nat) : Option ProgItem :=
  (decodeTableWord nbits w).map fun i => .port (portOf i)

end Sys2Proof.Machine
end

