-- ==== Sys2Proof/Machine/Step.lean ====
section
/-!
DEFINITION. One step of the engine (40_execution_step.md R61).
-/
namespace Sys2Proof.Machine

/-- One step: fetch (R60), accept the element or take its parse fault (R61 action 1), execute (actions 3 to 6).
The word handed to the host at action 2 changes no state: `traceOut` (Machine/Observe.lean). -/
def step (s : State) : Host.Outcome State Fault Refusal :=
  match s.fetch with
  | .error f => .fault f
  | .ok item =>
    match accept s.config item with
    | .error k => .next (s.raise (.parseError k))
    | .ok i => exec i s

/-- The state with the instruction of an opcode-table word placed where `step` fetches next (log 4). -/
def State.withFetchWord (s : State) (nbits w : Nat) : State :=
  s.placeNext (itemOfTableWord nbits w)

end Sys2Proof.Machine
end

