-- ==== Sys2Proof/Machine/Grammar.lean ====
section
/-!
DEFINITION. The language of accepted lines as a grammar (30_encoding.md R59), for the parameters the spec
recommends. It says what a line is, not how it is read: the parser is Machine/FrontEnd.lean. Where the printed
grammar differs from the rules R55 and R56, it follows those (log 11).
-/
namespace Sys2Proof.Machine

/-- `ws*`: spaces and tabs. -/
def Blank (cs : List Char) : Prop := ∀ c ∈ cs, c = ' ' ∨ c = '\t'

/-- `opcode`: the mnemonic in any letter case. -/
def OpcodeSpelling (cs : List Char) (op : Opcode) : Prop := cs.map Char.toLower = mnemonicChars op

/-- `regtoken`, with the digits 0 to 7 that name a register (R56). -/
inductive RegSpelling : List Char → RegIdx → Prop where
  | plain (l : Char) (r : RegIdx) (letter : l = 'r' ∨ l = 'R') :
      RegSpelling [l, Char.ofNat (48 + r.toNat)] r
  | punctuated (l p : Char) (r : RegIdx) (letter : l = 'r' ∨ l = 'R') (mark : p = ',' ∨ p = ':') :
      RegSpelling [l, Char.ofNat (48 + r.toNat), p] r

/-- `immediate`: an optional minus sign and one or more digits; the value is the decimal reading (R57). -/
inductive LiteralSpelling : List Char → Int → Prop where
  | nonneg (ds : List Char) (some_digit : ds ≠ []) (digits : ∀ c ∈ ds, c.isDigit = true) :
      LiteralSpelling ds (Nat.ofDigitChars 10 ds 0)
  | neg (ds : List Char) (some_digit : ds ≠ []) (digits : ∀ c ∈ ds, c.isDigit = true) :
      LiteralSpelling ('-' :: ds) (-(Nat.ofDigitChars 10 ds 0 : Int))

/-- `operand`: a register token, or a literal from -2147483648 to 2147483647 (R57, IMM_RANGE_POLICY = reject). -/
inductive OperandSpelling : List Char → Operand → Prop where
  | reg (cs : List Char) (r : RegIdx) (spelling : RegSpelling cs r) : OperandSpelling cs (.reg r)
  | imm (cs : List Char) (v : Word) (spelling : LiteralSpelling cs v.toInt) : OperandSpelling cs (.imm v)

/-- `line`: `end` and anything after a blank, or an operation, its destination and an optional operand, with
blanks between them and at both ends (R55, R56, R58). -/
inductive LineSpelling : List Char → Instr → Prop where
  | endLine (ws t rest : List Char) (leading : Blank ws) (opcode : OpcodeSpelling t .endOp)
      (separated : ∀ c, rest.head? = some c → c = ' ' ∨ c = '\t') :
      LineSpelling (ws ++ t ++ rest) .endE
  | noOperand (ws t ws₁ d ws₂ : List Char) (op : Opcode) (dst : RegIdx) (operation : op ≠ .endOp)
      (leading : Blank ws) (opcode : OpcodeSpelling t op) (gap : ws₁ ≠ []) (gap_blank : Blank ws₁)
      (destination : RegSpelling d dst) (trailing : Blank ws₂) :
      LineSpelling (ws ++ t ++ ws₁ ++ d ++ ws₂) (Instr.ofFields op dst .none)
  | withOperand (ws t ws₁ d ws₂ o ws₃ : List Char) (op : Opcode) (dst : RegIdx) (operand : Operand)
      (operation : op ≠ .endOp) (leading : Blank ws) (opcode : OpcodeSpelling t op) (gap : ws₁ ≠ [])
      (gap_blank : Blank ws₁) (destination : RegSpelling d dst) (gap' : ws₂ ≠ []) (gap_blank' : Blank ws₂)
      (second : OperandSpelling o operand) (trailing : Blank ws₃) :
      LineSpelling (ws ++ t ++ ws₁ ++ d ++ ws₂ ++ o ++ ws₃) (Instr.ofFields op dst operand)

end Sys2Proof.Machine
end

