-- ==== Sys2Proof/Machine/Observe.lean ====
section
/-!
DEFINITION. The block's outputs to the host, none of which changes the state: the encoder and trace port
(10_state.md R25), the display form (30_encoding.md R51), CPI (10_state.md R22) and the observation port (R24).
-/
namespace Sys2Proof.Machine

/-- The display form of a word or register: 32 characters, character k is bit 31 - k (30_encoding.md R51). -/
def binaryDisplay (w : Word) : String :=
  String.ofList ((List.range 32).map fun k => if w.getMsbD k then '1' else '0')

/-- What the trace port hands the host for an instruction (10_state.md R25). -/
structure TraceEntry where
  text : Option String
  word : Word
deriving DecidableEq, Repr

/-- The word as the trace shows it, in square brackets (30_encoding.md R51). -/
def TraceEntry.display (t : TraceEntry) : String :=
  "[" ++ binaryDisplay t.word ++ "]"

/-- Action 2 of the step taken from this state (40_execution_step.md R61): the text and encoded word of the
instruction about to execute; nothing when no step is taken or when the element is not accepted. A function of
the state and no part of it, since the word is not stored (10_state.md R25, R26; log 13). -/
def State.traceOut (s : State) : Option TraceEntry :=
  match s.fetch with
  | .error _ => none
  | .ok item =>
    match accept s.config item with
    | .error _ => none
    | .ok i => some { text := item.text, word := encode i }

/-- CPI, the exact rational, undefined when nothing was executed (10_state.md R22, decision D20). -/
def State.cpi (s : State) : Option Rat :=
  if s.instructionCount = 0 then none else some ((s.cycleCount : Rat) / (s.instructionCount : Rat))

/-- What the host reads after the run (10_state.md R24). -/
structure Report where
  decimals : List Int
  binaries : List String
  cycleCount : Nat
  instructionCount : Nat
  cpi : Option Rat
  isRunning : Bool
  fault : Option FaultRecord
  faultCode : Nat
  pc : Nat
deriving DecidableEq, Repr

/-- The observation port (10_state.md R24): each register in decimal and in binary, the counters, CPI and the
rest of the state. -/
def State.report (s : State) : Report :=
  { decimals := s.x.toList.map s32
    binaries := s.x.toList.map binaryDisplay
    cycleCount := s.cycleCount
    instructionCount := s.instructionCount
    cpi := s.cpi
    isRunning := s.isRunning
    fault := s.fault
    faultCode := s.faultCode
    pc := s.pc }

end Sys2Proof.Machine
end

