-- ==== Sys2Proof/Machine/Run.lean ====
section
/-!
DEFINITION. A run (40_execution_step.md R69; 70_reset_and_hazards.md R120 to R123): reset, then steps until no
step can be taken.
-/
namespace Sys2Proof.Machine

/-- The state at the start of a run: reset, with the sequence and the parameters the host supplied
(70_reset_and_hazards.md R120, R121, R123). -/
def State.beginRun (cfg : Config) (prog : List ProgItem) : State :=
  { State.reset with prog := prog, config := cfg }

/-- The state after at most n steps; a state in which no step is taken is final (40_execution_step.md R60). -/
def State.runFor : Nat → State → State
  | 0, s => s
  | n + 1, s =>
    match step s with
    | .next t => State.runFor n t
    | .fault _ => s
    | .refused _ => s

/-- A run as a function of the sequence and the parameters alone (70_reset_and_hazards.md R122): at most as many
steps as the sequence has elements (40_execution_step.md R69). -/
def runProgram (cfg : Config) (prog : List ProgItem) : State :=
  State.runFor prog.length (State.beginRun cfg prog)

end Sys2Proof.Machine
end

