-- ==== Sys2Proof/Safety.lean ====
section
/-!
DEFINITION. How a run ends and what counts as a success (40_execution_step.md R69), what it means that an
instruction completes or faults, and the invariant of a run. Statements are written in these words.
-/
namespace Sys2Proof.Machine

/-- The three ends of a run (40_execution_step.md R69). -/
inductive RunEnd where
  | halted
  | faulted
  | exhausted
deriving DecidableEq, Repr

/-- A step is taken from this state (40_execution_step.md R60). -/
def State.canStep (s : State) : Prop :=
  s.isRunning = true ∧ s.fault = none ∧ s.pc < s.prog.length

/-- The end of the run that this state is, if it is one (40_execution_step.md R69; a pc beyond the sequence, which
no run reaches, counts as `exhausted`, log 7). -/
def State.ending (s : State) : Option RunEnd :=
  if s.isRunning = false then some .halted
  else if s.fault.isSome then some .faulted
  else if s.prog.length ≤ s.pc then some .exhausted
  else none

/-- `Halted` is the only end that is a success (40_execution_step.md R69). -/
def State.succeeded (s : State) : Prop := s.ending = some .halted

/-- The host kept its duty: the sequence holds an `end` (70_reset_and_hazards.md R123). -/
def Terminated (cfg : Config) (prog : List ProgItem) : Prop :=
  ∃ item ∈ prog, accept cfg item = .ok .endE

/-- From `s` the instruction `i` answers the next state `t` of its own effect: the registers read as `regs` says,
one instruction is counted, `n` is added to the cycles, the pc advances, the run flag becomes `running`, and the
fault record, the sequence and the parameters stay. -/
def CompletesTo (i : Instr) (s : State) (regs : RegIdx → Word) (n : Nat) (running : Bool) (t : State) : Prop :=
  exec i s = .next t ∧
  (∀ r, t.readReg r = regs r) ∧
  t.instructionCount = s.instructionCount + 1 ∧
  t.cycleCount = s.cycleCount + n ∧
  t.pc = s.pc + 1 ∧
  t.isRunning = running ∧
  t.fault = s.fault ∧ t.prog = s.prog ∧ t.config = s.config

/-- The instruction answers a next state of its own effect (see `CompletesTo`). -/
def Completes (i : Instr) (s : State) (regs : RegIdx → Word) (n : Nat) (running : Bool) : Prop :=
  ∃ t, CompletesTo i s regs n running t

/-- `t` is `s` with a fault of kind `k` taken and nothing else changed (60_exceptions.md R109). -/
def FaultTaken (s : State) (k : FaultKind) (t : State) : Prop :=
  t.fault = some { kind := k, atPc := s.pc, text := s.prog[s.pc]?.bind ProgItem.text } ∧
  (∀ r, t.readReg r = s.readReg r) ∧
  t.instructionCount = s.instructionCount ∧ t.cycleCount = s.cycleCount ∧ t.pc = s.pc ∧
  t.isRunning = s.isRunning ∧ t.prog = s.prog ∧ t.config = s.config

/-- Register contents with one register written (41_mov_add_sub.md R70 to R72). -/
def withReg (s : State) (dst : RegIdx) (v : Word) : RegIdx → Word :=
  fun r => if r = dst then v else s.readReg r

/-- Register contents after the two writes of the result handler: the side result stands in register 7, the primary
result in the destination unless that is register 7 (42_mul_div.md R82). -/
def withPair (s : State) (dst : RegIdx) (lo hi : Word) : RegIdx → Word :=
  fun r => if r = 7 then hi else if r = dst then lo else s.readReg r

/-- The cost of an element that was accepted (40_execution_step.md R65). -/
def itemCost (cfg : Config) (item : ProgItem) : Nat :=
  match accept cfg item with
  | .ok i => cost i.opcode
  | .error _ => 0

/-- The element at the pc raises the fault `k` in this state, by the rules that raise it (60_exceptions.md R100). -/
def State.faultCause (s : State) (k : FaultKind) : Prop :=
  ∃ item, s.prog[s.pc]? = some item ∧
    match k with
    | .parseError e => accept s.config item = .error e
    | .arithmeticError .divideByZero =>
      ∃ i, accept s.config item = .ok i ∧ i.opcode = .div ∧ s.operandValue i.operand = 0#32
    | .arithmeticError .divideOverflow =>
      ∃ i, accept s.config item = .ok i ∧ i.opcode = .div ∧ s.readReg i.dst = 0x80000000#32 ∧
        s.operandValue i.operand = 0xFFFFFFFF#32 ∧ s.config.divOverflow = .fault

/-- What holds at every step boundary of a run (10_state.md R14 to R18; 40_execution_step.md R64, R65, R69):
the counters account for the elements before the pc, which were all accepted; an `end` is among them exactly when
the engine has halted, and then it is the last; a fault record names the element at the pc and a cause that still
holds there. -/
structure RunInvariant (s : State) : Prop where
  pc_le : s.pc ≤ s.prog.length
  count_eq : s.instructionCount = s.pc
  accepted : ∀ item ∈ s.prog.take s.pc, ∃ i, accept s.config item = .ok i
  cycles_eq : s.cycleCount = ((s.prog.take s.pc).map (itemCost s.config)).sum
  running : s.isRunning = true → ∀ item ∈ s.prog.take s.pc, accept s.config item ≠ .ok .endE
  halted : s.isRunning = false → s.fault = none ∧
    ∃ done item, s.prog.take s.pc = done ++ [item] ∧ accept s.config item = .ok .endE ∧
      ∀ e ∈ done, accept s.config e ≠ .ok .endE
  recorded : ∀ f, s.fault = some f →
    f.atPc = s.pc ∧ f.text = s.prog[s.pc]?.bind ProgItem.text ∧ s.faultCause f.kind

/-- Two states that agree but for the sequence. -/
def State.agreesButProg (s t : State) : Prop :=
  { s with prog := [] } = { t with prog := [] }

/-- The element without its text (10_state.md R23: the text is carried only so that a fault can name it). -/
def dropPortText : ProgItem → ProgItem
  | .line t => .line t
  | .port p => .port { p with text := none }

end Sys2Proof.Machine
end

