-- ==== Sys2Proof/Certificates/Slice0/Obligations.lean ====
section
/-!
DEFINITION. The statements for the provers. Each docstring names the rule or section of spec/ it formalises, and
the decision or log entry where a clause rests on one.
-/

open Sys2Proof Sys2Proof.Machine

/-! ## The encoded word -/

/-- Words written out from the layout of 30_encoding.md section 4 (vectors E1 to E25 of 95_test_vectors.md) decode
to the instructions they stand for, and words outside the encoder's range are refused by name. The block has no
decoder: which of the instructions that share a word the decoder gives is the model's choice (log 5). -/
def Obligations.ListedWordsDecodeToTheirInstructions : Prop :=
  decode 0x00000000#32 = .ok .endE ∧
  decode 0x11000A00#32 = .ok (.movI 0 10) ∧
  decode 0x13FFFF00#32 = .ok (.movI 1 (-1)) ∧
  decode 0x10000000#32 = .ok (.movN 0) ∧
  decode 0x1AC00000#32 = .ok (.movR 5 6) ∧
  decode 0x20200000#32 = .ok (.addR 0 1) ∧
  decode 0x26000000#32 = .ok (.addN 3) ∧
  decode 0x30400000#32 = .ok (.subR 0 2) ∧
  decode 0x4E000000#32 = .ok (.mulN 7) ∧
  decode 0x45000400#32 = .ok (.mulI 2 4) ∧
  decode 0x5CE00000#32 = .ok (.divR 6 7) ∧
  decode 0x53000A00#32 = .ok (.divI 1 10) ∧
  decode 0x60000000#32 = .error .unassignedOpcode ∧
  decode 0x00000001#32 = .error .reservedBitsSet ∧
  decode 0x20200001#32 = .error .reservedBitsSet ∧
  decode 0x11000A01#32 = .error .reservedBitsSet

/-- 30_encoding.md R48: `end` is the all-zero word, whatever destination or operand is presented with it. -/
def Obligations.EndEncodesToTheZeroWord : Prop :=
  (∀ (dst : RegIdx) (o : Operand), encodeFields .endOp dst o = 0x00000000#32) ∧ encode .endE = 0x00000000#32

/-- 30_encoding.md R43, R44, R46, R47, with the opcode values of R42 and the immediate field of R45: each field stands
in its bits, for `end` every other bit is 0, and in each form every reserved bit is 0. -/
def Obligations.EncodedFieldsStandInTheirBits : Prop :=
  ∀ (op : Opcode) (dst : RegIdx) (o : Operand),
    ((encodeFields op dst o).extractLsb' 28 4).toNat =
      (match op with | .endOp => 0 | .mov => 1 | .add => 2 | .sub => 3 | .mul => 4 | .div => 5) ∧
    (op = .endOp → (encodeFields op dst o).extractLsb' 0 28 = 0) ∧
    (op ≠ .endOp →
      (encodeFields op dst o).extractLsb' 25 3 = dst ∧
      match o with
      | .none => (encodeFields op dst o).extractLsb' 0 25 = 0
      | .reg src => (encodeFields op dst o).getLsbD 24 = false ∧ (encodeFields op dst o).extractLsb' 21 3 = src ∧
          (encodeFields op dst o).extractLsb' 0 21 = 0
      | .imm v => (encodeFields op dst o).getLsbD 24 = true ∧
          (encodeFields op dst o).extractLsb' 8 16 = v.extractLsb' 0 16 ∧
          (encodeFields op dst o).extractLsb' 0 8 = 0)

/-- 30_encoding.md R52 (which the spec derives from R49): two instructions share a word exactly when they are equal,
or are the form N and the form R with source 0 of one operation and destination, or carry immediates that agree in
their low 16 bits. -/
def Obligations.EncodeCollisionsAreExactlyTheListedOnes : Prop :=
  ∀ i j : Instr, encode i = encode j ↔
    i.opcode = j.opcode ∧ i.dst = j.dst ∧
      (i.operand = j.operand ∨
       (i.operand = .none ∧ j.operand = .reg 0) ∨
       (i.operand = .reg 0 ∧ j.operand = .none) ∨
       ∃ v w : Word, i.operand = .imm v ∧ j.operand = .imm w ∧ v.extractLsb' 0 16 = w.extractLsb' 0 16)

/-- Decode and encode agree, for all sixteen constructors: an instruction that the model's decoder prefers among
those that share its word (log 5) is given back whole, with every register and every immediate from -32768 to 32767;
any other instruction is given back as one with the same operation, destination and word. -/
def Obligations.DecodeInvertsEncodeOnFaithfulInstructions : Prop :=
  (∀ i : Instr, i.wordFaithful = true → decode (encode i) = .ok i) ∧
  (∀ v : Word, immFaithful v = true ↔ -32768 ≤ v.toInt ∧ v.toInt ≤ 32767) ∧
  (∀ i : Instr, ∃ j, decode (encode i) = .ok j ∧ j.wordFaithful = true ∧ encode j = encode i ∧
    j.opcode = i.opcode ∧ j.dst = i.dst)

/-- 30_encoding.md R53 (derived there, decision D21): a word is decoded exactly when it matches a row of the opcode
map, those are exactly the words the encoder produces, and a decoded instruction encodes to the word it came from. -/
def Obligations.DecoderAcceptsExactlyTheEncodersWords : Prop :=
  ∀ w : Word,
    ((∃ i, decode w = .ok i) ↔ matchesRow w = true) ∧
    ((∃ i, encode i = w) ↔ matchesRow w = true) ∧
    (∀ i, decode w = .ok i → encode i = w)

/-- 30_encoding.md R54 (derived there): `inverse(w)`, by its own case split, is the set of the instructions whose
word is w, and is empty for a word the encoder cannot produce. -/
def Obligations.InverseIsTheExactPreimage : Prop :=
  ∀ (w : Word) (i : Instr), inverseHas w i = true ↔ encode i = w

/-- 30_encoding.md R51 (its character order is derived there): the display form has 32 characters, character k is bit
31 - k, it reads as the word's binary numeral, and different words show differently. -/
def Obligations.BinaryDisplayIsTheBinaryNumeral : Prop :=
  ∀ w : Word,
    (binaryDisplay w).toList.length = 32 ∧
    (∀ k, k < 32 → (binaryDisplay w).toList[k]? = some (if w.getLsbD (31 - k) then '1' else '0')) ∧
    Nat.ofDigitChars 2 (binaryDisplay w).toList 0 = w.toNat ∧
    (∀ v : Word, binaryDisplay v = binaryDisplay w → v = w)

/-- 10_state.md R25 and 40_execution_step.md R61 action 2: for an accepted element the host is handed its text and
the word of its fields, whatever the registers and counters hold, and so for a `div` that then faults; for a rejected
element, or when no step is taken, nothing is handed over. -/
def Obligations.TraceHandsOverTextAndWord : Prop :=
  ∀ s : State,
    (¬ s.canStep → s.traceOut = none) ∧
    (∀ item i, s.canStep → s.prog[s.pc]? = some item → accept s.config item = .ok i →
      s.traceOut = some { text := item.text, word := encode i }) ∧
    (∀ item k, s.prog[s.pc]? = some item → accept s.config item = .error k → s.traceOut = none)

/-! ## The instructions -/

/-- 40_execution_step.md R62: the operand value is the register's current value, all 32 bits of the immediate, or 0;
the immediate 70000 is used whole although its word carries only 0x1170. -/
def Obligations.OperandValueFollowsItsKind : Prop :=
  (∀ (s : State) (src : RegIdx), s.operandValue (.reg src) = s.readReg src) ∧
  (∀ (s : State) (v : Word), s.operandValue (.imm v) = v) ∧
  (∀ s : State, s.operandValue .none = 0x00000000#32) ∧
  (∀ s : State, s.operandValue (.imm 70000#32) = 0x00011170#32) ∧
  (encode (.movI 0 70000#32)).extractLsb' 8 16 = 0x1170#16

/-- 41_mov_add_sub.md R70: `mov` in each form writes the operand value to the destination, changes no other register,
raises no fault, costs 1 and is counted. -/
def Obligations.MovCopiesTheOperandValue : Prop :=
  ∀ (s : State) (dst : RegIdx),
    Completes (.movN dst) s (withReg s dst 0) 1 s.isRunning ∧
    (∀ src : RegIdx, Completes (.movR dst src) s (withReg s dst (s.readReg src)) 1 s.isRunning) ∧
    (∀ v : Word, Completes (.movI dst v) s (withReg s dst v) 1 s.isRunning)

/-- 41_mov_add_sub.md R71: `add` in each form writes the wrapped sum of the destination and the operand, both read
before the write, changes no other register, raises no fault, costs 1 and is counted. -/
def Obligations.AddWritesTheWrappedSum : Prop :=
  ∀ (s : State) (dst : RegIdx),
    Completes (.addN dst) s s.readReg 1 s.isRunning ∧
    (∀ src : RegIdx, Completes (.addR dst src) s
      (withReg s dst (BitVec.ofInt 32 ((s.readReg dst).toInt + (s.readReg src).toInt))) 1 s.isRunning) ∧
    (∀ v : Word, Completes (.addI dst v) s
      (withReg s dst (BitVec.ofInt 32 ((s.readReg dst).toInt + v.toInt))) 1 s.isRunning)

/-- 41_mov_add_sub.md R72: `sub` in each form writes the wrapped difference, destination minus operand, changes no
other register, raises no fault, costs 1 and is counted. -/
def Obligations.SubWritesTheWrappedDifference : Prop :=
  ∀ (s : State) (dst : RegIdx),
    Completes (.subN dst) s s.readReg 1 s.isRunning ∧
    (∀ src : RegIdx, Completes (.subR dst src) s
      (withReg s dst (BitVec.ofInt 32 ((s.readReg dst).toInt - (s.readReg src).toInt))) 1 s.isRunning) ∧
    (∀ v : Word, Completes (.subI dst v) s
      (withReg s dst (BitVec.ofInt 32 ((s.readReg dst).toInt - v.toInt))) 1 s.isRunning)

/-- 41_mov_add_sub.md R73 (decision D22): sums and differences are exact modulo 2^32, the same bits signed or
unsigned, and 0x7FFFFFFF + 1 is 0x80000000. -/
def Obligations.SumsAndDifferencesWrapModulo : Prop :=
  (∀ a b : Word,
    (2 : Int) ^ 32 ∣ (addWrap a b).toInt - (a.toInt + b.toInt) ∧
    (2 : Int) ^ 32 ∣ (subWrap a b).toInt - (a.toInt - b.toInt) ∧
    (addWrap a b).toNat = (a.toNat + b.toNat) % 2 ^ 32 ∧
    (subWrap a b).toNat = (a.toNat + (2 ^ 32 - b.toNat)) % 2 ^ 32) ∧
  addWrap 0x7FFFFFFF#32 0x00000001#32 = 0x80000000#32 ∧
  subWrap 0x80000000#32 0x00000001#32 = 0x7FFFFFFF#32

/-- 42_mul_div.md R80: `mul` in each form leaves a low word in the destination and then a high word in register 7
which together are the signed 64-bit product, exactly; no other register changes, no fault is raised, it costs 3 and
is counted. -/
def Obligations.MulWritesTheSignedProductInTwoWords : Prop :=
  ∀ (s : State) (dst : RegIdx),
    Completes (.mulN dst) s (withPair s dst 0 0) 3 s.isRunning ∧
    (∀ src : RegIdx, ∃ lo hi : Word,
      (hi ++ lo).toInt = (s.readReg dst).toInt * (s.readReg src).toInt ∧
      Completes (.mulR dst src) s (withPair s dst lo hi) 3 s.isRunning) ∧
    (∀ v : Word, ∃ lo hi : Word,
      (hi ++ lo).toInt = (s.readReg dst).toInt * v.toInt ∧
      Completes (.mulI dst v) s (withPair s dst lo hi) 3 s.isRunning)

/-- The quotient and the remainder of 42_mul_div.md R83: they give the dividend back, and the remainder is smaller
than the divisor and is zero or has the sign of the dividend. -/
def TruncatingDivision (a b q r : Int) : Prop :=
  a = q * b + r ∧ |r| < |b| ∧ (r = 0 ∨ (0 < r ∧ 0 < a) ∨ (r < 0 ∧ a < 0))

/-- 42_mul_div.md sections 1 and 3 (the remainder's sign is decision D10, log 10): with a nonzero operand, and outside
the one division that overflows, `div` leaves the quotient in the destination and then the remainder in register 7;
no other register changes, it costs 4 and is counted. The form without operand always faults:
DivFaultsOnAZeroOperand. -/
def Obligations.DivWritesQuotientAndRemainder : Prop :=
  ∀ (s : State) (dst : RegIdx),
    (∀ src : RegIdx, s.readReg src ≠ 0 → ¬ (s.readReg dst = 0x80000000#32 ∧ s.readReg src = 0xFFFFFFFF#32) →
      ∃ q r : Word, TruncatingDivision (s.readReg dst).toInt (s.readReg src).toInt q.toInt r.toInt ∧
        Completes (.divR dst src) s (withPair s dst q r) 4 s.isRunning) ∧
    (∀ v : Word, v ≠ 0 → ¬ (s.readReg dst = 0x80000000#32 ∧ v = 0xFFFFFFFF#32) →
      ∃ q r : Word, TruncatingDivision (s.readReg dst).toInt v.toInt q.toInt r.toInt ∧
        Completes (.divI dst v) s (withPair s dst q r) 4 s.isRunning)

/-- 42_mul_div.md section 3 and 60_exceptions.md sections 1 and 4 (the record and the frozen counters are decision
D5, log 9): `div` with a zero operand value, so always in the form without operand, takes DivideByZero whatever the
dividend, and changes nothing but the fault record. -/
def Obligations.DivFaultsOnAZeroOperand : Prop :=
  ∀ (s : State) (dst : RegIdx),
    (∃ t, exec (.divN dst) s = .next t ∧ FaultTaken s (.arithmeticError .divideByZero) t) ∧
    (∀ src : RegIdx, s.readReg src = 0 →
      ∃ t, exec (.divR dst src) s = .next t ∧ FaultTaken s (.arithmeticError .divideByZero) t) ∧
    (∃ t, exec (.divI dst 0) s = .next t ∧ FaultTaken s (.arithmeticError .divideByZero) t)

/-- 42_mul_div.md section 3 and 60_exceptions.md section 1, the parameter DIV_OVERFLOW (decision D9): -2147483648 / -1
gives quotient -2147483648 and remainder 0 under `wrap`, and takes DivideOverflow, changing nothing else, under
`fault`. -/
def Obligations.DivOverflowFollowsItsPolicy : Prop :=
  ∀ (s : State) (dst : RegIdx), s.readReg dst = 0x80000000#32 →
    (s.config.divOverflow = .wrap →
      Completes (.divI dst 0xFFFFFFFF#32) s (withPair s dst 0x80000000#32 0) 4 s.isRunning ∧
      ∀ src : RegIdx, s.readReg src = 0xFFFFFFFF#32 →
        Completes (.divR dst src) s (withPair s dst 0x80000000#32 0) 4 s.isRunning) ∧
    (s.config.divOverflow = .fault →
      (∃ t, exec (.divI dst 0xFFFFFFFF#32) s = .next t ∧
        FaultTaken s (.arithmeticError .divideOverflow) t) ∧
      ∀ src : RegIdx, s.readReg src = 0xFFFFFFFF#32 →
        ∃ t, exec (.divR dst src) s = .next t ∧ FaultTaken s (.arithmeticError .divideOverflow) t)

/-- 42_mul_div.md R82: the side result is the final write, so with register 7 as the destination of `mul` or `div` it
alone is left, and otherwise the destination holds the primary result; both inputs are the values from before. -/
def Obligations.SideResultStandsInRegisterSeven : Prop :=
  ∀ (s : State) (dst : RegIdx) (o : Operand),
    (∃ t, exec (Instr.ofFields .mul dst o) s = .next t ∧
      t.readReg 7 = mulHigh (s.readReg dst) (s.operandValue o) ∧
      (dst ≠ 7 → t.readReg dst = mulLow (s.readReg dst) (s.operandValue o))) ∧
    (divFault s.config.divOverflow (s.readReg dst) (s.operandValue o) = none →
      ∃ t, exec (Instr.ofFields .div dst o) s = .next t ∧
        t.readReg 7 = divRemainder (s.readReg dst) (s.operandValue o) ∧
        (dst ≠ 7 → t.readReg dst = divQuotient (s.readReg dst) (s.operandValue o)))

/-- 43_end.md R90: `end` stops the engine, changes no register, raises no fault, costs 1 and is counted. -/
def Obligations.EndHaltsAndIsCounted : Prop :=
  ∀ s : State, Completes .endE s s.readReg 1 false

/-- 00_scope.md section 5 and 30_encoding.md section 3: instructions that share a word execute differently, so
execution is not driven from the word. -/
def Obligations.InstructionsWithOneWordExecuteDifferently : Prop :=
  (∀ (s : State) (d : RegIdx), s.readReg 0 ≠ 0 →
    encode (.addN d) = encode (.addR d 0) ∧
    ∃ t u, exec (.addN d) s = .next t ∧ exec (.addR d 0) s = .next u ∧ t.readReg d ≠ u.readReg d) ∧
  (∀ (s : State) (d : RegIdx),
    encode (.movI d 70000#32) = encode (.movI d 4464#32) ∧
    ∃ t u, exec (.movI d 70000#32) s = .next t ∧ exec (.movI d 4464#32) s = .next u ∧
      t.readReg d = 70000#32 ∧ u.readReg d = 4464#32)

/-! ## The step -/

/-- 40_execution_step.md sections 1 and 2: when a step is taken and the element at the pc is accepted as an
instruction, the step is the execution of that instruction in that state, for an element of either kind. -/
def Obligations.StepRunsTheAcceptedInstruction : Prop :=
  ∀ (s : State) (item : ProgItem) (i : Instr), s.canStep → s.prog[s.pc]? = some item →
    accept s.config item = .ok i → step s = exec i s

/-- The host's interface (log 4): placing the word of an instruction makes the next step run the instruction the
model's decoder reads from it, in that state. -/
def Obligations.PlacedWordRunsItsDecodedInstruction : Prop :=
  ∀ (s : State) (w : Nat) (i : Instr), decodeTableWord 32 w = some i →
    step (s.withFetchWord 32 w) = exec i (s.withFetchWord 32 w) ∧
    (∀ r, (s.withFetchWord 32 w).readReg r = s.readReg r) ∧ (s.withFetchWord 32 w).pc = s.pc

/-- 40_execution_step.md section 2 action 1 and 60_exceptions.md section 4 (the record is decision D5): when a step is
taken and the element at the pc is rejected, the parse fault is taken and nothing else changes, whatever an
instruction would have done. -/
def Obligations.RejectedElementTakesItsParseFault : Prop :=
  ∀ (s : State) (item : ProgItem) (k : ParseFault), s.canStep → s.prog[s.pc]? = some item →
    accept s.config item = .error k → ∃ t, step s = .next t ∧ FaultTaken s (.parseError k) t

/-- 40_execution_step.md R60: a step is taken exactly when the engine is Running, no fault is recorded and the pc is
inside the sequence; otherwise the state is final. -/
def Obligations.StepIsTakenExactlyWhenEnabled : Prop :=
  ∀ s : State, ((∃ t, step s = .next t) ↔ s.canStep) ∧ (¬ s.canStep → ∀ n, State.runFor n s = s)

/-- 40_execution_step.md section 6: the state in which no step is taken is Halted, Faulted or Exhausted. That `step`
answers it as a stop of that name is the model's choice (log 7). -/
def Obligations.EndedRunsStopByName : Prop :=
  ∀ s : State,
    (step s = .fault .halted ↔ s.ending = some .halted) ∧
    (step s = .fault .faulted ↔ s.ending = some .faulted) ∧
    (step s = .fault .exhausted ↔ s.ending = some .exhausted) ∧
    (s.canStep ↔ s.ending = none) ∧
    (∀ m, step s ≠ .refused (.notModelled m))

/-- 10_state.md R17: the run flag is true at reset, a step clears it exactly when the element it runs is an `end`,
and once it is false no step is taken. -/
def Obligations.OnlyEndStopsTheEngine : Prop :=
  State.reset.isRunning = true ∧
  ∀ s t : State, step s = .next t →
    s.isRunning = true ∧
    (t.isRunning = false ↔ ∃ item, s.prog[s.pc]? = some item ∧ accept s.config item = .ok .endE) ∧
    (t.isRunning = false → ∀ u, step t ≠ .next u)

/-- 40_execution_step.md R64, R65: a step that completes, that is, leaves no fault, adds 1 to the count and the cost
of its operation to the cycles: 1, 1, 1, 3, 4, 1. -/
def Obligations.CompletedStepsCountAndCost : Prop :=
  ∀ s t : State, step s = .next t → t.fault = none →
    ∃ item i, s.prog[s.pc]? = some item ∧ accept s.config item = .ok i ∧
      t.instructionCount = s.instructionCount + 1 ∧
      t.cycleCount = s.cycleCount +
        (match i.opcode with | .mov => 1 | .add => 1 | .sub => 1 | .mul => 3 | .div => 4 | .endOp => 1)

/-- 40_execution_step.md sections 4 and 5 (the pc is the spec's own, decision D3; the faulting step, decision D5): a
step that completes advances the pc by one, and a step that faults moves neither the pc nor a counter. -/
def Obligations.PcAdvancesExactlyByCompletion : Prop :=
  ∀ s t : State, step s = .next t →
    (t.fault = none ∧ t.pc = s.pc + 1) ∨
    (t.fault ≠ none ∧ t.pc = s.pc ∧ t.instructionCount = s.instructionCount ∧ t.cycleCount = s.cycleCount)

/-- 10_state.md section 1, the table of reads and writes (derived there): a step changes a register only if it
completes an instruction other than `end` and the register is the destination, or is register 7 and the operation is
`mul` or `div`. -/
def Obligations.RegistersChangeOnlyByTheirInstruction : Prop :=
  ∀ (s t : State) (r : RegIdx), step s = .next t → t.readReg r ≠ s.readReg r →
    t.fault = none ∧
    ∃ item i, s.prog[s.pc]? = some item ∧ accept s.config item = .ok i ∧ i ≠ .endE ∧
      (r = i.dst ∨ (r = 7 ∧ (i.opcode = .mul ∨ i.opcode = .div)))

/-- 60_exceptions.md sections 1, 4 and 5 (the record is decision D5): a step that ends with a fault recorded has taken
exactly that fault, for a cause the rules name, has changed nothing else, and no step follows it. -/
def Obligations.FaultsArePreciseAndFinal : Prop :=
  ∀ (s t : State) (f : FaultRecord), step s = .next t → t.fault = some f →
    s.fault = none ∧ FaultTaken s f.kind t ∧ s.faultCause f.kind ∧ step t = .fault .faulted

/-- 10_state.md sections 4 and 5 and 20_memory.md section 7: no step changes the instruction sequence. That no step
changes the parameters is the model's way of carrying them (log 2). -/
def Obligations.StepsKeepSequenceAndParameters : Prop :=
  ∀ s t : State, step s = .next t → t.prog = s.prog ∧ t.config = s.config

/-! ## Runs -/

/-- 10_state.md section 7, with decisions D3 and D5 for the pc and the fault record: the state after reset, and the
state at the start of a run, which is the same with the sequence and the parameters supplied. -/
def Obligations.ResetLeavesTheStatedValues : Prop :=
  (∀ r, State.reset.readReg r = 0x00000000#32) ∧
  State.reset.cycleCount = 0 ∧ State.reset.instructionCount = 0 ∧ State.reset.isRunning = true ∧
  State.reset.pc = 0 ∧ State.reset.fault = none ∧
  ∀ (cfg : Config) (prog : List ProgItem),
    (State.beginRun cfg prog).agreesButProg { State.reset with config := cfg } ∧
    (State.beginRun cfg prog).prog = prog

/-- The invariant of a run holds at reset and at the start of every run. -/
def Obligations.RunInvariantHoldsAtTheStart : Prop :=
  RunInvariant State.reset ∧ ∀ (cfg : Config) (prog : List ProgItem), RunInvariant (State.beginRun cfg prog)

/-- 10_state.md section 4 and 40_execution_step.md sections 4 to 6 (decisions D3, D5): every step keeps the invariant
of a run. The pc equals the count and stays inside the sequence, the cycles are the sum of the costs of the elements
before the pc, an `end` is among those exactly in a halted state and is the last, and a fault record names the element
at the pc with a cause that still holds there. -/
def Obligations.RunInvariantKeptByEveryStep : Prop :=
  ∀ s t : State, RunInvariant s → step s = .next t → RunInvariant t

/-- 40_execution_step.md section 6 (derived there): from every state the run ends, in at most as many steps as the
sequence has elements from the pc on, in one of the three ends. -/
def Obligations.RunsEndWithinTheSequence : Prop :=
  ∀ (s : State) (n : Nat), s.prog.length - s.pc ≤ n →
    State.runFor n s = State.runFor (s.prog.length - s.pc) s ∧ ∃ e, (State.runFor n s).ending = some e

/-- 40_execution_step.md section 6 and 70_reset_and_hazards.md section 2 (decision D12): when the host supplied an
`end`, the run ends Halted or Faulted and never Exhausted. -/
def Obligations.TerminatedRunsAreNeverExhausted : Prop :=
  ∀ (cfg : Config) (prog : List ProgItem), Terminated cfg prog →
    (runProgram cfg prog).succeeded ∨ (runProgram cfg prog).ending = some .faulted

/-- 70_reset_and_hazards.md section 4 (derived there): the cycles lie between the count and four times the count, and
so CPI, where it is defined, between 1 and 4. -/
def Obligations.CyclesLieBetweenOneAndFourPerInstruction : Prop :=
  ∀ s : State, RunInvariant s →
    s.instructionCount ≤ s.cycleCount ∧ s.cycleCount ≤ 4 * s.instructionCount ∧
    ∀ q, s.cpi = some q → 1 ≤ q ∧ q ≤ 4

/-- 43_end.md R91: no step leaves a halted state and nothing is handed to the trace there, and elements after an `end`
are never examined: two sequences that agree up to it run alike, step by step, whatever follows. -/
def Obligations.ElementsAfterEndAreNeverExamined : Prop :=
  (∀ s : State, s.isRunning = false →
    (∀ t, step s ≠ .next t) ∧ s.traceOut = none ∧ ∀ n, State.runFor n s = s) ∧
  ∀ (cfg : Config) (before after₁ after₂ : List ProgItem) (e : ProgItem) (n : Nat), accept cfg e = .ok .endE →
    (State.runFor n (State.beginRun cfg (before ++ e :: after₁))).agreesButProg
      (State.runFor n (State.beginRun cfg (before ++ e :: after₂)))

/-- 10_state.md section 6 (the ports are decision D1): the text that accompanies an instruction at the port decides
nothing but the text of a fault record. -/
def Obligations.PortTextIsNeverExecuted : Prop :=
  ∀ s t : State, step s = .next t →
    ∃ u, step { s with prog := s.prog.map dropPortText } = .next u ∧
      u.x = t.x ∧ u.pc = t.pc ∧ u.cycleCount = t.cycleCount ∧ u.instructionCount = t.instructionCount ∧
      u.isRunning = t.isRunning ∧
      u.fault.map (fun f => (f.kind, f.atPc)) = t.fault.map (fun f => (f.kind, f.atPc))

/-- 10_state.md section 4 (decision D20): CPI is undefined exactly when nothing was executed, and otherwise is the
exact quotient. -/
def Obligations.CpiIsTheExactQuotient : Prop :=
  ∀ s : State, (s.cpi = none ↔ s.instructionCount = 0) ∧
    ∀ q, s.cpi = some q → q * (s.instructionCount : Rat) = (s.cycleCount : Rat)

/-- 10_state.md sections 4 and 6 and 60_exceptions.md section 1: the host reads each of the eight registers as its
signed value and as its binary form, CPI, and the rest of the state as it is. That the report also holds the fault's
code is the model's choice (log 15); the six codes are those of the table of faults (decision D6), and 0 is no fault. -/
def Obligations.ReportShowsTheWholeState : Prop :=
  ∀ s : State,
    s.report.decimals.length = 8 ∧ s.report.binaries.length = 8 ∧
    (∀ r : RegIdx, s.report.decimals[r.toNat]? = some (s.readReg r).toInt ∧
      s.report.binaries[r.toNat]? = some (binaryDisplay (s.readReg r))) ∧
    s.report.cycleCount = s.cycleCount ∧ s.report.instructionCount = s.instructionCount ∧
    s.report.cpi = s.cpi ∧
    s.report.isRunning = s.isRunning ∧ s.report.fault = s.fault ∧ s.report.pc = s.pc ∧
    s.report.faultCode =
      (match s.fault.map FaultRecord.kind with
       | none => 0
       | some (.arithmeticError .divideByZero) => 1
       | some (.parseError .invalidOpcode) => 2
       | some (.parseError .invalidRegister) => 3
       | some (.parseError .invalidImmediate) => 4
       | some (.parseError .malformedLine) => 5
       | some (.arithmeticError .divideOverflow) => 6)

/-! ## The front end and the port -/

/-- 30_encoding.md sections 6 (canonical spelling): every instruction's canonical line, with every register and every
32-bit immediate, is parsed back to that instruction, under every setting of the parameters. -/
def Obligations.CanonicalLinesParseBack : Prop :=
  ∀ (cfg : Config) (i : Instr), parseLine cfg (canonicalLine i) = .ok i

/-- 30_encoding.md section 6, the grammar (decisions D14 to D18, log 11): under the recommended parameters the front
end accepts exactly the lines of the grammar, each as the instruction the grammar gives it. -/
def Obligations.AcceptedLinesAreTheGrammar : Prop :=
  ∀ (cs : List Char) (i : Instr), parseChars Config.recommended cs = .ok i ↔ LineSpelling cs i

/-- 30_encoding.md section 6 (decision D18): blanks before and after a line change nothing, and a run of blanks
between two parts of a line may be any other run of blanks. -/
def Obligations.RunsOfBlanksAreInterchangeable : Prop :=
  ∀ (cfg : Config) (a b cs ds : List Char), Blank a → Blank b →
    parseChars cfg (a ++ cs ++ b) = parseChars cfg cs ∧
    (a ≠ [] → b ≠ [] → parseChars cfg (cs ++ a ++ ds) = parseChars cfg (cs ++ b ++ ds))

/-- 30_encoding.md section 6 (decision D18 for the register letter): the letter case of a line changes nothing. -/
def Obligations.LetterCaseIsIgnored : Prop :=
  ∀ (cfg : Config) (cs : List Char), parseChars cfg (cs.map Char.toLower) = parseChars cfg cs

/-- 60_exceptions.md section 3 (decision D7): among the parse faults of a line the first offending token from the left
names the fault, whatever follows it. -/
def Obligations.FirstOffendingTokenNamesTheFault : Prop :=
  ∀ (cfg : Config) (t d o : Token) (rest : List Token),
    parseTokens cfg [] = .error .malformedLine ∧
    (opcodeOfToken t = none → parseTokens cfg (t :: rest) = .error .invalidOpcode) ∧
    (opcodeOfToken t = some .endOp → parseTokens cfg (t :: rest) = .ok .endE) ∧
    ∀ op, op ≠ .endOp → opcodeOfToken t = some op →
      parseTokens cfg [t] = .error .malformedLine ∧
      (parseReg d = none → parseTokens cfg (t :: d :: rest) = .error .invalidRegister) ∧
      ∀ dst, parseReg d = some dst →
        parseTokens cfg [t, d] = .ok (Instr.ofFields op dst .none) ∧
        (startsWithR o = true → parseReg o = none →
          parseTokens cfg (t :: d :: o :: rest) = .error .invalidRegister) ∧
        (startsWithR o = false → parseImm cfg o = none →
          parseTokens cfg (t :: d :: o :: rest) = .error .invalidImmediate) ∧
        (∀ v, parseOperand cfg o = .ok v → rest ≠ [] → cfg.extraToken = .reject →
          parseTokens cfg (t :: d :: o :: rest) = .error .malformedLine) ∧
        (∀ v, parseOperand cfg o = .ok v → rest = [] ∨ cfg.extraToken = .ignore →
          parseTokens cfg (t :: d :: o :: rest) = .ok (Instr.ofFields op dst v))

/-- 92_eei_decisions.md D4, D16, D18: the other settings of the parameters only accept more lines; they give no line
another meaning. -/
def Obligations.PermissivePoliciesOnlyAcceptMore : Prop :=
  ∀ (cfg : Config) (cs : List Char) (i : Instr), parseChars Config.recommended cs = .ok i → parseChars cfg cs = .ok i

/-- 30_encoding.md section 6 (decisions D4, D18): a decimal literal of any size is read as its value when a word holds
it, and otherwise is wrapped or rejected as IMM_RANGE_POLICY says; with a leading plus sign it is read so too where
PLUS_SIGN_POLICY accepts it and is rejected elsewhere. -/
def Obligations.LiteralsAreReadInRangeOrByPolicy : Prop :=
  ∀ (cfg : Config) (op : Opcode) (dst : RegIdx), op ≠ .endOp →
    (∀ z : Int,
      parseChars cfg (mnemonicChars op ++ ' ' :: (regChars dst ++ ',' :: ' ' :: literalChars z)) =
        if (-2147483648 ≤ z ∧ z ≤ 2147483647) ∨ cfg.immRange = .wrap
        then .ok (Instr.ofFields op dst (.imm (BitVec.ofInt 32 z))) else .error .invalidImmediate) ∧
    (∀ n : Nat,
      parseChars cfg (mnemonicChars op ++ ' ' :: (regChars dst ++ ',' :: ' ' :: '+' :: literalChars n)) =
        if cfg.plusSign = .accept ∧ (n ≤ 2147483647 ∨ cfg.immRange = .wrap)
        then .ok (Instr.ofFields op dst (.imm (BitVec.ofInt 32 n))) else .error .invalidImmediate)

/-- 10_state.md section 6 and 60_exceptions.md section 1 (decision D8): at the port the opcode values 6 to 15 are the
fault InvalidOpcode, whatever the other fields, the values 1 to 5 are accepted with the fields as they are, and 0 is
`end` with the other fields ignored. -/
def Obligations.PortChecksTheOpcodeAlone : Prop :=
  ∀ p : PortInstr,
    (6 ≤ p.op.toNat → acceptPort p = .error .invalidOpcode) ∧
    (p.op.toNat < 6 → ∃ op : Opcode, op.bits = p.op ∧ acceptPort p = .ok (Instr.ofFields op p.dst p.operand)) ∧
    (p.op = 0#4 → acceptPort p = .ok .endE)
end

