-- ==== Sys2Proof/Laws/Fields.lean ====
section
/-!
SUPPORT. The fields of an instruction and of its port form, and the encoder by form.
-/
namespace Sys2Proof

@[simp] theorem Instr.ofFields_self (i : Instr) : Instr.ofFields i.opcode i.dst i.operand = i := by
  cases i <;> rfl

theorem Instr.opcode_ofFields (op : Opcode) (d : RegIdx) (o : Operand) : (Instr.ofFields op d o).opcode = op := by
  cases op <;> cases o <;> rfl

theorem Instr.dst_ofFields {op : Opcode} (h : op ≠ .endOp) (d : RegIdx) (o : Operand) :
    (Instr.ofFields op d o).dst = d := by
  cases op <;> cases o <;> first | rfl | exact absurd rfl h

theorem Instr.operand_ofFields {op : Opcode} (h : op ≠ .endOp) (d : RegIdx) (o : Operand) :
    (Instr.ofFields op d o).operand = o := by
  cases op <;> cases o <;> first | rfl | exact absurd rfl h

theorem Instr.opcode_eq_endOp {i : Instr} : i.opcode = .endOp ↔ i = .endE := by
  cases i <;> simp [Instr.opcode]

@[simp] theorem Opcode.ofBits_bits (op : Opcode) : Opcode.ofBits op.bits = some op := by
  cases op <;> decide

theorem Opcode.bits_of_ofBits {b : BitVec 4} {op : Opcode} (h : Opcode.ofBits b = some op) : op.bits = b := by
  unfold Opcode.ofBits at h
  split at h
  · cases h; simp_all [Opcode.bits]
  · split at h
    · cases h; simp_all [Opcode.bits]
    · split at h
      · cases h; simp_all [Opcode.bits]
      · split at h
        · cases h; simp_all [Opcode.bits]
        · split at h
          · cases h; simp_all [Opcode.bits]
          · split at h
            · cases h; simp_all [Opcode.bits]
            · cases h

theorem Opcode.bits_injective {a b : Opcode} (h : a.bits = b.bits) : a = b := by
  cases a <;> cases b <;> first | rfl | exact absurd h (by decide)

theorem encodeFields_none {op : Opcode} (h : op ≠ .endOp) (d : RegIdx) :
    encodeFields op d .none = op.bits ++ d ++ 0#1 ++ 0#3 ++ 0#21 := by
  cases op <;> first | rfl | exact absurd rfl h

theorem encodeFields_reg {op : Opcode} (h : op ≠ .endOp) (d s : RegIdx) :
    encodeFields op d (.reg s) = op.bits ++ d ++ 0#1 ++ s ++ 0#21 := by
  cases op <;> first | rfl | exact absurd rfl h

theorem encodeFields_imm {op : Opcode} (h : op ≠ .endOp) (d : RegIdx) (v : Word) :
    encodeFields op d (.imm v) = op.bits ++ d ++ 1#1 ++ v.extractLsb' 0 16 ++ 0#8 := by
  cases op <;> first | rfl | exact absurd rfl h

/-- An instruction handed over as its port form is accepted as itself (10_state.md R23). -/
@[simp] theorem Machine.acceptPort_portOf (i : Instr) : Machine.acceptPort (Machine.portOf i) = .ok i := by
  simp [Machine.acceptPort, Machine.portOf]

end Sys2Proof
end

