-- ==== Sys2Proof/Laws/Encode.lean ====
section
/-!
SUPPORT. The encoder and the decoder as unsigned arithmetic (30_encoding.md R49: opcode times 2^28, destination
times 2^25, mode times 2^24, and the operand's field), so that proofs about words are linear arithmetic.
-/
namespace Sys2Proof

/-- Concatenation as arithmetic. -/
theorem append_toNat {m n : Nat} (a : BitVec m) (b : BitVec n) : (a ++ b).toNat = a.toNat * 2 ^ n + b.toNat := by
  rw [BitVec.toNat_append, ← Nat.shiftLeft_add_eq_or_of_lt b.isLt, Nat.shiftLeft_eq]

/-- A bit field as arithmetic. -/
theorem extract_toNat {m : Nat} (w : BitVec m) (lo n : Nat) :
    (w.extractLsb' lo n).toNat = w.toNat / 2 ^ lo % 2 ^ n := by
  rw [BitVec.extractLsb'_toNat, Nat.shiftRight_eq_div_pow]

/-- One bit as arithmetic. -/
theorem bit_iff {m : Nat} (w : BitVec m) (k : Nat) : w.getLsbD k = true ↔ w.toNat / 2 ^ k % 2 = 1 := by
  simp [BitVec.getLsbD, Nat.testBit_eq_decide_div_mod_eq]

theorem bit_false_iff {m : Nat} (w : BitVec m) (k : Nat) : w.getLsbD k = false ↔ w.toNat / 2 ^ k % 2 = 0 := by
  rw [← Bool.not_eq_true, bit_iff]; omega

theorem eq_iff_toNat {m : Nat} (a b : BitVec m) : a = b ↔ a.toNat = b.toNat := BitVec.toNat_inj.symm

theorem Opcode.bits_toNat_lt (op : Opcode) : op.bits.toNat < 6 := by cases op <;> decide

theorem Opcode.bits_toNat_pos {op : Opcode} (h : op ≠ .endOp) : 0 < op.bits.toNat := by
  cases op <;> first | exact absurd rfl h | decide

theorem encodeFields_none_toNat {op : Opcode} (h : op ≠ .endOp) (d : RegIdx) :
    (encodeFields op d .none).toNat = op.bits.toNat * 2 ^ 28 + d.toNat * 2 ^ 25 := by
  rw [encodeFields_none h]
  simp only [append_toNat]
  simp
  omega

theorem encodeFields_reg_toNat {op : Opcode} (h : op ≠ .endOp) (d s : RegIdx) :
    (encodeFields op d (.reg s)).toNat = op.bits.toNat * 2 ^ 28 + d.toNat * 2 ^ 25 + s.toNat * 2 ^ 21 := by
  rw [encodeFields_reg h]
  simp only [append_toNat]
  simp
  omega

theorem encodeFields_imm_toNat {op : Opcode} (h : op ≠ .endOp) (d : RegIdx) (v : Word) :
    (encodeFields op d (.imm v)).toNat =
      op.bits.toNat * 2 ^ 28 + d.toNat * 2 ^ 25 + 2 ^ 24 + v.toNat % 2 ^ 16 * 2 ^ 8 := by
  rw [encodeFields_imm h]
  simp only [append_toNat, extract_toNat]
  simp
  omega

/-- The low 16 bits survive sign extension. -/
theorem signExtend_low (v : BitVec 16) : (v.signExtend 32).toNat % 2 ^ 16 = v.toNat := by
  have h : (v.signExtend 32).extractLsb' 0 16 = v := by
    ext i hi
    simp [BitVec.getElem_signExtend, show i < 32 by omega, hi]
  have := congrArg BitVec.toNat h
  simpa [extract_toNat] using this

/-- The decoder on a word whose opcode field is an operation's, by the form of the word (30_encoding.md R41). -/
theorem decode_eq {w : Word} {op : Opcode} (h : op ≠ .endOp) (hw : w.extractLsb' 28 4 = op.bits) :
    decode w =
      if w.getLsbD 24 then
        if w.extractLsb' 0 8 = 0 then
          .ok (Instr.ofFields op (w.extractLsb' 25 3) (.imm ((w.extractLsb' 8 16).signExtend 32)))
        else .error .reservedBitsSet
      else if w.extractLsb' 0 21 = 0 then
        if w.extractLsb' 21 3 = 0 then .ok (Instr.ofFields op (w.extractLsb' 25 3) .none)
        else .ok (Instr.ofFields op (w.extractLsb' 25 3) (.reg (w.extractLsb' 21 3)))
      else .error .reservedBitsSet := by
  unfold decode
  rw [hw, Opcode.ofBits_bits]
  cases op <;> first | rfl | exact absurd rfl h

theorem decode_zero_opcode {w : Word} (hw : w.extractLsb' 28 4 = 0) :
    decode w = if w = 0 then .ok .endE else .error .reservedBitsSet := by
  unfold decode
  rw [hw]
  rfl

theorem decode_unassigned {w : Word} (hw : Opcode.ofBits (w.extractLsb' 28 4) = none) :
    decode w = .error .unassignedOpcode := by
  unfold decode
  rw [hw]

end Sys2Proof
end

