-- ==== Sys2Proof/Laws/State.lean ====
section
/-!
SUPPORT. One lemma per field and per named update of the state, each true by unfolding once, so that no later
proof unfolds a record update; and what a register reads as after each update.
-/
namespace Sys2Proof.Machine

variable (s : State)

/-! Fields after a register write. -/

@[simp] theorem State.writeReg_x (r : RegIdx) (v : Word) : (s.writeReg r v).x = s.x.set r.toNat v r.isLt := rfl
@[simp] theorem State.writeReg_pc (r : RegIdx) (v : Word) : (s.writeReg r v).pc = s.pc := rfl
@[simp] theorem State.writeReg_cycleCount (r : RegIdx) (v : Word) : (s.writeReg r v).cycleCount = s.cycleCount := rfl
@[simp] theorem State.writeReg_instructionCount (r : RegIdx) (v : Word) : (s.writeReg r v).instructionCount = s.instructionCount := rfl
@[simp] theorem State.writeReg_isRunning (r : RegIdx) (v : Word) : (s.writeReg r v).isRunning = s.isRunning := rfl
@[simp] theorem State.writeReg_fault (r : RegIdx) (v : Word) : (s.writeReg r v).fault = s.fault := rfl
@[simp] theorem State.writeReg_prog (r : RegIdx) (v : Word) : (s.writeReg r v).prog = s.prog := rfl
@[simp] theorem State.writeReg_config (r : RegIdx) (v : Word) : (s.writeReg r v).config = s.config := rfl

/-! Fields after the result handler's two writes. -/

@[simp] theorem State.writePair_x (d : RegIdx) (lo hi : Word) : (s.writePair d lo hi).x = (s.writeReg d lo).x.set sideReg.toNat hi sideReg.isLt := rfl
@[simp] theorem State.writePair_pc (d : RegIdx) (lo hi : Word) : (s.writePair d lo hi).pc = s.pc := rfl
@[simp] theorem State.writePair_cycleCount (d : RegIdx) (lo hi : Word) : (s.writePair d lo hi).cycleCount = s.cycleCount := rfl
@[simp] theorem State.writePair_instructionCount (d : RegIdx) (lo hi : Word) : (s.writePair d lo hi).instructionCount = s.instructionCount := rfl
@[simp] theorem State.writePair_isRunning (d : RegIdx) (lo hi : Word) : (s.writePair d lo hi).isRunning = s.isRunning := rfl
@[simp] theorem State.writePair_fault (d : RegIdx) (lo hi : Word) : (s.writePair d lo hi).fault = s.fault := rfl
@[simp] theorem State.writePair_prog (d : RegIdx) (lo hi : Word) : (s.writePair d lo hi).prog = s.prog := rfl
@[simp] theorem State.writePair_config (d : RegIdx) (lo hi : Word) : (s.writePair d lo hi).config = s.config := rfl

/-! Fields after the completion of a step. -/

@[simp] theorem State.complete_x (op : Opcode) : (s.complete op).x = s.x := rfl
@[simp] theorem State.complete_pc (op : Opcode) : (s.complete op).pc = s.pc + 1 := rfl
@[simp] theorem State.complete_cycleCount (op : Opcode) : (s.complete op).cycleCount = s.cycleCount + cost op := rfl
@[simp] theorem State.complete_instructionCount (op : Opcode) : (s.complete op).instructionCount = s.instructionCount + 1 := rfl
@[simp] theorem State.complete_isRunning (op : Opcode) : (s.complete op).isRunning = s.isRunning := rfl
@[simp] theorem State.complete_fault (op : Opcode) : (s.complete op).fault = s.fault := rfl
@[simp] theorem State.complete_prog (op : Opcode) : (s.complete op).prog = s.prog := rfl
@[simp] theorem State.complete_config (op : Opcode) : (s.complete op).config = s.config := rfl

/-! Fields after halting. -/

@[simp] theorem State.halt_x : (s.halt).x = s.x := rfl
@[simp] theorem State.halt_pc : (s.halt).pc = s.pc := rfl
@[simp] theorem State.halt_cycleCount : (s.halt).cycleCount = s.cycleCount := rfl
@[simp] theorem State.halt_instructionCount : (s.halt).instructionCount = s.instructionCount := rfl
@[simp] theorem State.halt_isRunning : (s.halt).isRunning = false := rfl
@[simp] theorem State.halt_fault : (s.halt).fault = s.fault := rfl
@[simp] theorem State.halt_prog : (s.halt).prog = s.prog := rfl
@[simp] theorem State.halt_config : (s.halt).config = s.config := rfl

/-! Fields after taking a fault. -/

@[simp] theorem State.raise_x (k : FaultKind) : (s.raise k).x = s.x := rfl
@[simp] theorem State.raise_pc (k : FaultKind) : (s.raise k).pc = s.pc := rfl
@[simp] theorem State.raise_cycleCount (k : FaultKind) : (s.raise k).cycleCount = s.cycleCount := rfl
@[simp] theorem State.raise_instructionCount (k : FaultKind) : (s.raise k).instructionCount = s.instructionCount := rfl
@[simp] theorem State.raise_isRunning (k : FaultKind) : (s.raise k).isRunning = s.isRunning := rfl
@[simp] theorem State.raise_fault (k : FaultKind) : (s.raise k).fault = some { kind := k, atPc := s.pc, text := s.prog[s.pc]?.bind ProgItem.text } := rfl
@[simp] theorem State.raise_prog (k : FaultKind) : (s.raise k).prog = s.prog := rfl
@[simp] theorem State.raise_config (k : FaultKind) : (s.raise k).config = s.config := rfl

/-! Registers after each update. -/

theorem State.readReg_writeReg (d r : RegIdx) (v : Word) :
    (s.writeReg d v).readReg r = if r = d then v else s.readReg r := by
  simp [State.readReg, Vector.getElem_set, BitVec.toNat_inj, eq_comm]

@[simp] theorem State.readReg_writeReg_same (d : RegIdx) (v : Word) : (s.writeReg d v).readReg d = v := by
  simp [State.readReg_writeReg]

theorem State.readReg_writePair (d r : RegIdx) (lo hi : Word) :
    (s.writePair d lo hi).readReg r = if r = 7 then hi else if r = d then lo else s.readReg r := by
  simp only [State.writePair, State.readReg_writeReg]
  rfl

@[simp] theorem State.readReg_complete (op : Opcode) (r : RegIdx) : (s.complete op).readReg r = s.readReg r := rfl

@[simp] theorem State.readReg_halt (r : RegIdx) : s.halt.readReg r = s.readReg r := rfl

@[simp] theorem State.readReg_raise (k : FaultKind) (r : RegIdx) : (s.raise k).readReg r = s.readReg r := rfl

/-- The register file is its eight readings (10_state.md R10). -/
theorem State.x_ext {s t : State} (h : ∀ r : RegIdx, s.readReg r = t.readReg r) : s.x = t.x := by
  refine Vector.ext fun i hi => ?_
  simpa [State.readReg, Nat.mod_eq_of_lt hi] using h (BitVec.ofNat 3 i)

/-! The operand value by kind (40_execution_step.md R62). -/

@[simp] theorem State.operandValue_none : s.operandValue .none = 0#32 := rfl

@[simp] theorem State.operandValue_reg (r : RegIdx) : s.operandValue (.reg r) = s.readReg r := rfl

@[simp] theorem State.operandValue_imm (v : Word) : s.operandValue (.imm v) = v := rfl

/-! The state at the start of a run. -/

@[simp] theorem State.readReg_reset (r : RegIdx) : State.reset.readReg r = 0#32 := by
  simp [State.readReg, State.reset]

@[simp] theorem State.beginRun_x (c : Config) (p : List ProgItem) : (State.beginRun c p).x = State.reset.x := rfl
@[simp] theorem State.beginRun_pc (c : Config) (p : List ProgItem) : (State.beginRun c p).pc = State.reset.pc := rfl
@[simp] theorem State.beginRun_cycleCount (c : Config) (p : List ProgItem) : (State.beginRun c p).cycleCount = State.reset.cycleCount := rfl
@[simp] theorem State.beginRun_instructionCount (c : Config) (p : List ProgItem) : (State.beginRun c p).instructionCount = State.reset.instructionCount := rfl
@[simp] theorem State.beginRun_isRunning (c : Config) (p : List ProgItem) : (State.beginRun c p).isRunning = State.reset.isRunning := rfl
@[simp] theorem State.beginRun_fault (c : Config) (p : List ProgItem) : (State.beginRun c p).fault = State.reset.fault := rfl
@[simp] theorem State.beginRun_prog (c : Config) (p : List ProgItem) : (State.beginRun c p).prog = p := rfl
@[simp] theorem State.beginRun_config (c : Config) (p : List ProgItem) : (State.beginRun c p).config = c := rfl

end Sys2Proof.Machine
end

