-- ==== Sys2Proof/Laws/Exec.lean ====
section
/-!
SUPPORT. What the shared operations, `exec`, the fetch and `step` can do, each said once, for proofs to cite
instead of unfolding them.
-/
namespace Sys2Proof.Machine

/-- `exec` by operation: the three forms of an operation differ in the operand alone. -/
theorem exec_by_opcode (i : Instr) (s : State) :
    exec i s = match i.opcode with
      | .endOp => .next (s.halt.complete .endOp)
      | .mov => applyMov i.dst i.operand s
      | .add => applyAdd i.dst i.operand s
      | .sub => applySub i.dst i.operand s
      | .mul => applyMul i.dst i.operand s
      | .div => applyDiv i.dst i.operand s := by
  cases i <;> rfl

/-- `div` faults or completes, by the fault indication of the result handler (42_mul_div.md R85). -/
theorem applyDiv_of_no_fault {dst : RegIdx} {o : Operand} {s : State}
    (h : divFault s.config.divOverflow (s.readReg dst) (s.operandValue o) = none) :
    applyDiv dst o s = .next ((s.writePair dst (divQuotient (s.readReg dst) (s.operandValue o))
      (divRemainder (s.readReg dst) (s.operandValue o))).complete .div) := by
  simp [applyDiv, h]

theorem applyDiv_of_fault {dst : RegIdx} {o : Operand} {s : State} {k : ArithFault}
    (h : divFault s.config.divOverflow (s.readReg dst) (s.operandValue o) = some k) :
    applyDiv dst o s = .next (s.raise (.arithmeticError k)) := by
  simp [applyDiv, h]

/-- Everything `exec` can do when it answers a next state: halt, write one register, write the pair, or take an
arithmetic fault of `div`. -/
theorem exec_next_cases {i : Instr} {s t : State} (h : exec i s = .next t) :
    (i = .endE ∧ t = s.halt.complete .endOp) ∨
    (∃ v, (i.opcode = .mov ∨ i.opcode = .add ∨ i.opcode = .sub) ∧
      t = (s.writeReg i.dst v).complete i.opcode) ∨
    (∃ lo hi, (i.opcode = .mul ∨ i.opcode = .div) ∧ t = (s.writePair i.dst lo hi).complete i.opcode) ∨
    (∃ k, i.opcode = .div ∧
      divFault s.config.divOverflow (s.readReg i.dst) (s.operandValue i.operand) = some k ∧
      t = s.raise (.arithmeticError k)) := by
  rw [exec_by_opcode] at h
  cases hop : i.opcode <;> simp only [hop] at h
  case endOp =>
    refine .inl ⟨?_, by simpa using h.symm⟩
    cases i <;> simp_all [Instr.opcode]
  case mov => exact .inr (.inl ⟨_, .inl rfl, by simpa [applyMov] using h.symm⟩)
  case add => exact .inr (.inl ⟨_, .inr (.inl rfl), by simpa [applyAdd] using h.symm⟩)
  case sub => exact .inr (.inl ⟨_, .inr (.inr rfl), by simpa [applySub] using h.symm⟩)
  case mul => exact .inr (.inr (.inl ⟨_, _, .inl rfl, by simpa [applyMul] using h.symm⟩))
  case div =>
    cases hf : divFault s.config.divOverflow (s.readReg i.dst) (s.operandValue i.operand) with
    | none =>
      rw [applyDiv_of_no_fault hf] at h
      exact .inr (.inr (.inl ⟨_, _, .inr rfl, by simpa using h.symm⟩))
    | some k =>
      rw [applyDiv_of_fault hf] at h
      exact .inr (.inr (.inr ⟨k, rfl, rfl, by simpa using h.symm⟩))

/-- When the result handler indicates a fault for `div` (42_mul_div.md R81, R84). -/
theorem divFault_eq_some {p : DivOverflowPolicy} {d v : Word} {k : ArithFault} :
    divFault p d v = some k ↔
      (k = .divideByZero ∧ v = 0#32) ∨
      (k = .divideOverflow ∧ d = 0x80000000#32 ∧ v = 0xFFFFFFFF#32 ∧ p = .fault) := by
  have h0 : s32 v = 0 ↔ v = 0#32 := by
    simp only [s32, ← BitVec.toInt_inj]; simp
  have h1 : s32 d = -2147483648 ↔ d = 0x80000000#32 := by
    simp only [s32, ← BitVec.toInt_inj]
    rw [show (0x80000000#32).toInt = -2147483648 from by decide]
  have h2 : s32 v = -1 ↔ v = 0xFFFFFFFF#32 := by
    simp only [s32, ← BitVec.toInt_inj]
    rw [show (0xFFFFFFFF#32).toInt = -1 from by decide]
  simp only [divFault, h0, h1, h2]
  split
  · rename_i hv
    subst hv
    cases k <;> simp
  · split <;> cases k <;> simp_all

/-- The end of a run has a name in `step`'s answer, and no other state stops it. -/
theorem fetch_ok_iff {s : State} {item : ProgItem} :
    s.fetch = .ok item ↔ s.isRunning = true ∧ s.fault = none ∧ s.prog[s.pc]? = some item := by
  unfold State.fetch
  cases s.isRunning <;> cases s.fault <;> cases s.prog[s.pc]? <;> simp

/-- Everything a step can do when it answers a next state. -/
theorem step_next_cases {s t : State} (h : step s = .next t) :
    s.isRunning = true ∧ s.fault = none ∧ ∃ item, s.prog[s.pc]? = some item ∧
      ((∃ k, accept s.config item = .error k ∧ t = s.raise (.parseError k)) ∨
       (∃ i, accept s.config item = .ok i ∧ exec i s = .next t)) := by
  unfold step at h
  cases hf : s.fetch with
  | error f => simp [hf] at h
  | ok item =>
    obtain ⟨hr, hn, hi⟩ := fetch_ok_iff.1 hf
    refine ⟨hr, hn, item, hi, ?_⟩
    cases ha : accept s.config item with
    | error k => exact .inl ⟨k, rfl, by simpa [hf, ha] using h.symm⟩
    | ok i => exact .inr ⟨i, rfl, by simpa [hf, ha] using h⟩

/-- A step from a state whose next element is accepted is the execution of the instruction. -/
theorem step_of_accepted {s : State} {item : ProgItem} {i : Instr} (hr : s.isRunning = true) (hn : s.fault = none)
    (hi : s.prog[s.pc]? = some item) (ha : accept s.config item = .ok i) : step s = exec i s := by
  simp [step, fetch_ok_iff.2 ⟨hr, hn, hi⟩, ha]

/-- A step from a state whose next element is not accepted takes the parse fault. -/
theorem step_of_rejected {s : State} {item : ProgItem} {k : ParseFault} (hr : s.isRunning = true)
    (hn : s.fault = none) (hi : s.prog[s.pc]? = some item) (ha : accept s.config item = .error k) :
    step s = .next (s.raise (.parseError k)) := by
  simp [step, fetch_ok_iff.2 ⟨hr, hn, hi⟩, ha]

/-- No step changes the sequence or the parameters of the run. -/
theorem exec_keeps_run {i : Instr} {s t : State} (h : exec i s = .next t) :
    t.prog = s.prog ∧ t.config = s.config := by
  rcases exec_next_cases h with ⟨-, rfl⟩ | ⟨v, -, rfl⟩ | ⟨lo, hi, -, rfl⟩ | ⟨k, -, -, rfl⟩ <;> simp

end Sys2Proof.Machine
end

