-- ==== Sys2Proof/Laws/FrontEnd.lean ====
section
/-!
SUPPORT. What the tokeniser and the small parsers of the front end do (30_encoding.md R55 to R57), each said once.
-/
namespace Sys2Proof.Machine

/-! ## Tokens -/

@[simp] theorem isBlank_iff (c : Char) : isBlank c = true ↔ c = ' ' ∨ c = '\t' := by
  simp [isBlank]

@[simp] theorem consToken_nil (ts : List Token) : consToken [] ts = ts := rfl

theorem consToken_of_ne {t : Token} (h : t ≠ []) (ts : List Token) : consToken t ts = t :: ts := by
  simp [consToken, h]

theorem consToken_append (t : Token) (ts us : List Token) : consToken t (ts ++ us) = consToken t ts ++ us := by
  unfold consToken; split <;> simp

@[simp] theorem tokens_nil : tokens [] = [] := rfl

theorem splitTokens_blank {c : Char} (h : isBlank c = true) (cs : List Char) :
    splitTokens (c :: cs) = ([], tokens cs) := by
  simp only [splitTokens, h, if_true, tokens]

theorem splitTokens_char {c : Char} (h : isBlank c = false) (cs : List Char) :
    splitTokens (c :: cs) = (c :: (splitTokens cs).1, (splitTokens cs).2) := by
  simp [splitTokens, h]

/-- A leading blank changes nothing. -/
theorem tokens_blank {c : Char} (h : isBlank c = true) (cs : List Char) : tokens (c :: cs) = tokens cs := by
  rw [tokens, splitTokens_blank h]; rfl

/-- A run of leading blanks changes nothing. -/
theorem tokens_blank_append {ws : List Char} (h : Blank ws) (cs : List Char) : tokens (ws ++ cs) = tokens cs := by
  induction ws with
  | nil => rfl
  | cons c ws ih =>
    rw [List.cons_append, tokens_blank ((isBlank_iff c).2 (h c (by simp)))]
    exact ih fun d hd => h d (by simp [hd])

theorem splitTokens_append_blank {b : Char} (h : isBlank b = true) (cs ds : List Char) :
    splitTokens (cs ++ b :: ds) = ((splitTokens cs).1, (splitTokens cs).2 ++ tokens ds) := by
  induction cs with
  | nil => simp [splitTokens_blank h, splitTokens]
  | cons c cs ih =>
    cases hc : isBlank c with
    | true => simp [splitTokens_blank hc, tokens, ih, consToken_append]
    | false => simp [splitTokens_char hc, ih]

/-- A blank separates the tokens on its two sides. -/
theorem tokens_append_blank {b : Char} (h : isBlank b = true) (cs ds : List Char) :
    tokens (cs ++ b :: ds) = tokens cs ++ tokens ds := by
  simp only [tokens, splitTokens_append_blank h, consToken_append]

/-- A run of blanks separates the tokens on its two sides. -/
theorem tokens_gap {ws : List Char} (hne : ws ≠ []) (h : Blank ws) (cs ds : List Char) :
    tokens (cs ++ (ws ++ ds)) = tokens cs ++ tokens ds := by
  obtain ⟨b, ws, rfl⟩ := List.exists_cons_of_ne_nil hne
  rw [List.cons_append, tokens_append_blank ((isBlank_iff b).2 (h b (by simp))),
    tokens_blank_append fun d hd => h d (by simp [hd])]

/-- Trailing blanks change nothing. -/
theorem tokens_append_trailing {ws : List Char} (h : Blank ws) (cs : List Char) : tokens (cs ++ ws) = tokens cs := by
  by_cases hne : ws = []
  · simp [hne]
  · have := tokens_gap hne h cs []
    simpa using this

theorem splitTokens_word {t : Token} (h : ∀ c ∈ t, isBlank c = false) (cs : List Char) :
    splitTokens (t ++ cs) = (t ++ (splitTokens cs).1, (splitTokens cs).2) := by
  induction t with
  | nil => rfl
  | cons c t ih =>
    rw [List.cons_append, splitTokens_char (h c (by simp)), ih fun d hd => h d (by simp [hd])]
    rfl

/-- A word with no blank in it is one token. -/
theorem tokens_word {t : Token} (hne : t ≠ []) (h : ∀ c ∈ t, isBlank c = false) : tokens t = [t] := by
  have := splitTokens_word h []
  rw [List.append_nil] at this
  simp [tokens, this, splitTokens, consToken_of_ne hne]

/-- A word followed by nothing or by a blank is the first token, and the rest gives the others. -/
theorem tokens_word_append {t : Token} (hne : t ≠ []) (h : ∀ c ∈ t, isBlank c = false) {rest : List Char}
    (hr : ∀ c, rest.head? = some c → isBlank c = true) : tokens (t ++ rest) = t :: tokens rest := by
  cases rest with
  | nil => simpa using tokens_word hne h
  | cons b ds =>
    have hb := hr b rfl
    rw [tokens_append_blank hb, tokens_word hne h, tokens_blank hb]
    rfl

/-- What `splitTokens` answers reads back as the text: a word, and then nothing or a blank before the rest. -/
theorem splitTokens_spec (cs : List Char) :
    ∃ rest, cs = (splitTokens cs).1 ++ rest ∧ (∀ c ∈ (splitTokens cs).1, isBlank c = false) ∧
      (∀ c, rest.head? = some c → isBlank c = true) ∧ tokens rest = (splitTokens cs).2 := by
  induction cs with
  | nil => exact ⟨[], rfl, by simp [splitTokens], by simp, rfl⟩
  | cons c cs ih =>
    cases hc : isBlank c with
    | true =>
      rw [splitTokens_blank hc]
      exact ⟨c :: cs, rfl, by simp, by simp [hc, -isBlank_iff], tokens_blank hc cs⟩
    | false =>
      obtain ⟨rest, h1, h2, h3, h4⟩ := ih
      rw [splitTokens_char hc]
      refine ⟨rest, by rw [List.cons_append, ← h1], ?_, h3, h4⟩
      simpa [hc, -isBlank_iff] using h2

/-- A text with no token is blank. -/
theorem blank_of_tokens_nil {cs : List Char} (h : tokens cs = []) : Blank cs := by
  induction cs with
  | nil => intro c hc; cases hc
  | cons c cs ih =>
    cases hc : isBlank c with
    | true =>
      rw [tokens_blank hc] at h
      intro d hd
      rcases List.mem_cons.1 hd with rfl | hd
      · exact (isBlank_iff _).1 hc
      · exact ih h d hd
    | false =>
      rw [tokens, splitTokens_char hc, consToken_of_ne (by simp)] at h
      cases h

/-- A text with tokens is blanks, the first token, and a rest that gives the other tokens. -/
theorem tokens_eq_cons {cs : List Char} {t : Token} {ts : List Token} (h : tokens cs = t :: ts) :
    ∃ ws rest, cs = ws ++ (t ++ rest) ∧ Blank ws ∧ t ≠ [] ∧ (∀ c ∈ t, isBlank c = false) ∧
      (∀ c, rest.head? = some c → isBlank c = true) ∧ tokens rest = ts := by
  induction cs with
  | nil => cases h
  | cons c cs ih =>
    cases hc : isBlank c with
    | true =>
      rw [tokens_blank hc] at h
      obtain ⟨ws, rest, h1, h2, h3⟩ := ih h
      refine ⟨c :: ws, rest, by rw [h1]; rfl, ?_, h3⟩
      intro d hd
      rcases List.mem_cons.1 hd with rfl | hd
      · exact (isBlank_iff _).1 hc
      · exact h2 d hd
    | false =>
      have hne : (splitTokens (c :: cs)).1 ≠ [] := by rw [splitTokens_char hc]; simp
      obtain ⟨rest, h1, h2, h3, h4⟩ := splitTokens_spec (c :: cs)
      rw [tokens, consToken_of_ne hne] at h
      cases h
      exact ⟨[], rest, h1, by simp [Blank], hne, h2, h3, h4⟩

/-! ## The small parsers -/

/-- A token names an operation exactly when it spells its mnemonic in some letter case. -/
theorem opcodeOfToken_eq_some {t : Token} {op : Opcode} :
    opcodeOfToken t = some op ↔ OpcodeSpelling t op := by
  unfold opcodeOfToken OpcodeSpelling
  constructor
  · intro h
    have := List.find?_some h
    simpa [eq_comm] using this
  · intro h
    rw [h]
    cases op <;> decide

/-- A register digit is 48 plus the index. -/
theorem regOfDigit_eq_some {c : Char} {r : RegIdx} :
    regOfDigit c = some r ↔ c = Char.ofNat (48 + r.toNat) := by
  constructor
  · intro h
    unfold regOfDigit at h
    split at h
    · rename_i hc
      have h1 : 48 ≤ c.toNat := hc.1
      have h2 : c.toNat ≤ 55 := hc.2
      cases h
      rw [BitVec.toNat_ofNat, Nat.mod_eq_of_lt (by omega), Nat.add_sub_cancel' h1, Char.ofNat_toNat]
    · cases h
  · rintro rfl
    revert r; decide

/-- A token is a register token exactly when the grammar says so. -/
theorem parseReg_eq_some {t : Token} {r : RegIdx} : parseReg t = some r ↔ RegSpelling t r := by
  constructor
  · intro h
    unfold parseReg at h
    split at h
    · split at h
      · rename_i hl
        rw [regOfDigit_eq_some] at h
        subst h
        exact .plain _ _ (by simpa [isRegLetter] using hl)
      · cases h
    · split at h
      · rename_i hl
        rw [regOfDigit_eq_some] at h
        subst h
        rw [Bool.and_eq_true] at hl
        exact .punctuated _ _ _ (by simpa [isRegLetter] using hl.1) (by simpa using hl.2)
      · cases h
    · cases h
  · rintro (⟨l, r, hl⟩ | ⟨l, p, r, hl, hp⟩)
    · simp only [parseReg, show isRegLetter l = true by simpa [isRegLetter] using hl, if_true]
      exact regOfDigit_eq_some.2 rfl
    · simp only [parseReg, show isRegLetter l = true by simpa [isRegLetter] using hl, Bool.true_and]
      rw [if_pos (by simpa using hp)]
      exact regOfDigit_eq_some.2 rfl

/-- Digits have a value exactly when there is one and all are digits. -/
theorem digitsValue_eq_some {t : Token} {n : Nat} :
    digitsValue t = some n ↔ t ≠ [] ∧ (∀ c ∈ t, c.isDigit = true) ∧ n = Nat.ofDigitChars 10 t 0 := by
  unfold digitsValue
  simp only [List.all_eq_true]
  split
  · rename_i h
    exact ⟨fun hn => ⟨h.1, h.2, (Option.some.inj hn).symm⟩, fun hn => congrArg some hn.2.2.symm⟩
  · rename_i h
    simp only [reduceCtorEq, false_iff]
    rintro ⟨h1, h2, -⟩; exact h ⟨h1, h2⟩

theorem accept_line (cfg : Config) (t : String) : accept cfg (.line t) = parseChars cfg t.toList := rfl

end Sys2Proof.Machine
end

