-- ==== Sys2Proof/Laws/PerInstr.lean ====
section
/-!
SUPPORT. A family of statements about every instruction as syntax, one lemma per constructor: its port form
passes the opcode check (10_state.md R23, 60_exceptions.md R102), its three fields determine it, and its opcode is
the one its row of spec/opcode_table.json names by the leading bits of the pattern.
-/
namespace Sys2Proof.Laws.FieldsDetermine

/-- The port form of the instruction is well-formed and its fields give it back. -/
def Statement (i : Instr) : Prop :=
  (Machine.portOf i).wellFormed = true ∧
  Instr.ofFields i.opcode i.dst i.operand = i ∧
  opcodeRows.any (fun r => decide (r.pattern.extractLsb' 28 4 = i.opcode.bits)) = true

/-- Every operation has a row of the opcode map with its opcode value (30_encoding.md R42, section 4). -/
theorem hasRow (op : Opcode) :
    opcodeRows.any (fun r => decide (r.pattern.extractLsb' 28 4 = op.bits)) = true := by
  cases op <;> decide

theorem endE : Statement (.endE) := ⟨rfl, rfl, hasRow _⟩

theorem movN (d : RegIdx) : Statement (.movN d) := ⟨rfl, rfl, hasRow _⟩

theorem movR (d : RegIdx) (s : RegIdx) : Statement (.movR d s) := ⟨rfl, rfl, hasRow _⟩

theorem movI (d : RegIdx) (v : Word) : Statement (.movI d v) := ⟨rfl, rfl, hasRow _⟩

theorem addN (d : RegIdx) : Statement (.addN d) := ⟨rfl, rfl, hasRow _⟩

theorem addR (d : RegIdx) (s : RegIdx) : Statement (.addR d s) := ⟨rfl, rfl, hasRow _⟩

theorem addI (d : RegIdx) (v : Word) : Statement (.addI d v) := ⟨rfl, rfl, hasRow _⟩

theorem subN (d : RegIdx) : Statement (.subN d) := ⟨rfl, rfl, hasRow _⟩

theorem subR (d : RegIdx) (s : RegIdx) : Statement (.subR d s) := ⟨rfl, rfl, hasRow _⟩

theorem subI (d : RegIdx) (v : Word) : Statement (.subI d v) := ⟨rfl, rfl, hasRow _⟩

theorem mulN (d : RegIdx) : Statement (.mulN d) := ⟨rfl, rfl, hasRow _⟩

theorem mulR (d : RegIdx) (s : RegIdx) : Statement (.mulR d s) := ⟨rfl, rfl, hasRow _⟩

theorem mulI (d : RegIdx) (v : Word) : Statement (.mulI d v) := ⟨rfl, rfl, hasRow _⟩

theorem divN (d : RegIdx) : Statement (.divN d) := ⟨rfl, rfl, hasRow _⟩

theorem divR (d : RegIdx) (s : RegIdx) : Statement (.divR d s) := ⟨rfl, rfl, hasRow _⟩

theorem divI (d : RegIdx) (v : Word) : Statement (.divI d v) := ⟨rfl, rfl, hasRow _⟩

end Sys2Proof.Laws.FieldsDetermine
end

