-- ==== Sys2Proof/Tests/Slice0.lean ====
section
/-!
SUPPORT. Small tests. Expected results are the vectors of 95_test_vectors.md (named E, A, M, V, T, F, P there),
which that file derives from the rules by hand. The last part shows, for each statement with hypotheses, concrete
states and operands that meet all of them together.
-/
namespace Sys2Proof.Tests
open Sys2Proof Sys2Proof.Machine

/-! ## Ill-formed terms are refused by each check -/

/-- F16: opcode 6 at the port; 5 is the last that is assigned. -/
theorem test_port_opcode_six_is_ill_formed :
    ({ op := 6#4, dst := 0#3, operand := .none, text := none } : PortInstr).wellFormed = false := by decide
theorem test_port_opcode_fifteen_is_ill_formed :
    ({ op := 15#4, dst := 7#3, operand := .none, text := none } : PortInstr).wellFormed = false := by decide
theorem test_port_opcode_five_is_well_formed :
    ({ op := 5#4, dst := 0#3, operand := .none, text := none } : PortInstr).wellFormed = true := by decide

/-- E11, E14: the word loses these immediates. -/
theorem test_immFaithful_refuses_what_the_word_loses :
    immFaithful 70000#32 = false ∧ immFaithful 65536#32 = false ∧ immFaithful 32768#32 = false := by decide
theorem test_wordFaithful_refuses_source_zero :
    (Operand.reg 0).wordFaithful = false ∧ (Instr.addR 3 0).wordFaithful = false := by decide
theorem test_wordFaithful_refuses_a_wide_immediate : (Instr.movI 0 70000).wordFaithful = false := by decide

/-! ## Words written out bit by bit from 30_encoding.md section 4, every constructor -/

/-- E1. -/
theorem test_decode_end : decode 0b00000000000000000000000000000000#32 = .ok .endE := by decide
/-- E23. -/
theorem test_decode_movN : decode 0b00010000000000000000000000000000#32 = .ok (.movN 0) := by decide
/-- E27. -/
theorem test_decode_movR : decode 0b00011010110000000000000000000000#32 = .ok (.movR 5 6) := by decide
/-- E2, E9. -/
theorem test_decode_movI :
    decode 0b00010001000000000000101000000000#32 = .ok (.movI 0 10) ∧
    decode 0b00011111100000000000000000000000#32 = .ok (.movI 7 (-32768)) := by decide
/-- E21. -/
theorem test_decode_addN : decode 0b00100110000000000000000000000000#32 = .ok (.addN 3) := by decide
/-- E4, E19. -/
theorem test_decode_addR :
    decode 0b00100000001000000000000000000000#32 = .ok (.addR 0 1) ∧
    decode 0b00101010101000000000000000000000#32 = .ok (.addR 5 5) := by decide
/-- E10. -/
theorem test_decode_addI : decode 0b00100111011111111111111100000000#32 = .ok (.addI 3 32767) := by decide
theorem test_decode_subN : decode 0b00110100000000000000000000000000#32 = .ok (.subN 2) := by decide
/-- E5. -/
theorem test_decode_subR : decode 0b00110000010000000000000000000000#32 = .ok (.subR 0 2) := by decide
/-- E13's word, read as the faithful immediate -1. -/
theorem test_decode_subI : decode 0b00111011111111111111111100000000#32 = .ok (.subI 5 (-1)) := by decide
/-- E20. -/
theorem test_decode_mulN : decode 0b01001110000000000000000000000000#32 = .ok (.mulN 7) := by decide
/-- E18. -/
theorem test_decode_mulR : decode 0b01001110111000000000000000000000#32 = .ok (.mulR 7 7) := by decide
/-- E6. -/
theorem test_decode_mulI : decode 0b01000101000000000000010000000000#32 = .ok (.mulI 2 4) := by decide
theorem test_decode_divN : decode 0b01010010000000000000000000000000#32 = .ok (.divN 1) := by decide
/-- E17. -/
theorem test_decode_divR : decode 0b01011100111000000000000000000000#32 = .ok (.divR 6 7) := by decide
/-- E7, E25. -/
theorem test_decode_divI :
    decode 0b01010011000000000000101000000000#32 = .ok (.divI 1 10) ∧
    decode 0b01010011000000000000000000000000#32 = .ok (.divI 1 0) := by decide

/-- R53: opcodes 6 and 15, a low bit beside an immediate, a low bit of form R, a bit of `end`. -/
theorem test_decode_refuses_by_name :
    decode 0x60000000#32 = .error .unassignedOpcode ∧ decode 0xF0000000#32 = .error .unassignedOpcode ∧
    decode 0x11000A80#32 = .error .reservedBitsSet ∧ decode 0x20300000#32 = .error .reservedBitsSet ∧
    decode 0x01000000#32 = .error .reservedBitsSet := by decide

/-- E11 and E12, E14, E15, E16, E22, E24. -/
theorem test_encode_of_what_the_word_loses :
    encode (.movI 0 70000) = 0x11117000#32 ∧ encode (.movI 0 4464) = 0x11117000#32 ∧
    encode (.movI 4 65536) = 0x19000000#32 ∧ encode (.subI 4 0x80000000#32) = 0x39000000#32 ∧
    encode (.movI 0 0x7FFFFFFF#32) = 0x11FFFF00#32 ∧ encode (.addR 3 0) = 0x26000000#32 ∧
    encode (.movR 0 0) = 0x10000000#32 := by decide

/-- E6's display string. -/
theorem test_display : binaryDisplay 0x45000400#32 = "01000101000000000000010000000000" := by decide

theorem test_decodeTableWord :
    decodeTableWord 32 0x5CE00000 = some (.divR 6 7) ∧ decodeTableWord 32 0x60000000 = none ∧
    decodeTableWord 16 0 = none := by decide

/-! ## One step of each instruction -/

/-- Reset with some registers written. -/
def start (regs : List (RegIdx × Word)) : State :=
  regs.foldl (fun s p => s.writeReg p.1 p.2) State.reset

/-- The outcome is a next state without a fault, with these registers, cycles and count. -/
def gives (o : Host.Outcome State Fault Refusal) (regs : List (RegIdx × Word)) (cyc ic : Nat) : Bool :=
  match o with
  | .next t => (regs.all fun p => decide (t.readReg p.1 = p.2)) && decide (t.cycleCount = cyc) &&
      decide (t.instructionCount = ic) && decide (t.pc = ic) && decide (t.fault = none)
  | .fault _ => false
  | .refused _ => false

/-- The outcome is a next state with this fault recorded, its registers and counters still those of `s`. -/
def faultsWith (s : State) (o : Host.Outcome State Fault Refusal) (k : FaultKind) : Bool :=
  match o with
  | .next t => decide (t.fault.map FaultRecord.kind = some k) && decide ({ t with fault := none } = s)
  | .fault _ => false
  | .refused _ => false

/-- A6. -/
theorem test_movN : gives (exec (.movN 5) (start [(5, 9)])) [(5, 0)] 1 1 = true := by decide
/-- A5. -/
theorem test_movR : gives (exec (.movR 5 6) (start [(6, 7)])) [(5, 7), (6, 7)] 1 1 = true := by decide
/-- A1, the whole immediate. -/
theorem test_movI_wide : gives (exec (.movI 0 70000) (start [])) [(0, 0x00011170)] 1 1 = true := by decide
/-- A17, register 7 as a plain destination. -/
theorem test_movI_side : gives (exec (.movI 7 9) (start [(7, 5)])) [(7, 9)] 1 1 = true := by decide
/-- A9. -/
theorem test_addN : gives (exec (.addN 3) (start [(3, 9)])) [(3, 9)] 1 1 = true := by decide
/-- A10. -/
theorem test_addR : gives (exec (.addR 3 0) (start [(3, 9), (0, 4)])) [(3, 13), (0, 4)] 1 1 = true := by decide
/-- A16, the source is the destination. -/
theorem test_addR_self : gives (exec (.addR 0 0) (start [(0, 0x80000000)])) [(0, 0)] 1 1 = true := by decide
/-- A7. -/
theorem test_addI_wraps :
    gives (exec (.addI 0 1) (start [(0, 0x7FFFFFFF)])) [(0, 0x80000000), (7, 0)] 1 1 = true := by decide
/-- A13. -/
theorem test_addI_negative : gives (exec (.addI 5 (-8)) (start [(5, 7)])) [(5, 0xFFFFFFFF)] 1 1 = true := by decide
theorem test_subN : gives (exec (.subN 3) (start [(3, 9)])) [(3, 9)] 1 1 = true := by decide
/-- A18. -/
theorem test_subR : gives (exec (.subR 0 1) (start [(0, 10), (1, 3)])) [(0, 7), (1, 3)] 1 1 = true := by decide
/-- A12. -/
theorem test_subR_self : gives (exec (.subR 5 5) (start [(5, 6)])) [(5, 0)] 1 1 = true := by decide
/-- A8. -/
theorem test_subI_wraps :
    gives (exec (.subI 0 1) (start [(0, 0x80000000)])) [(0, 0x7FFFFFFF)] 1 1 = true := by decide
/-- A15. -/
theorem test_subI_lowest :
    gives (exec (.subI 0 0x80000000) (start [])) [(0, 0x80000000)] 1 1 = true := by decide
/-- M10. -/
theorem test_mulN : gives (exec (.mulN 3) (start [(3, 9), (7, 77)])) [(3, 0), (7, 0)] 3 1 = true := by decide
/-- M11. -/
theorem test_mulR :
    gives (exec (.mulR 0 1) (start [(0, 123456789), (1, 1000)])) [(0, 0xBE991A08), (1, 1000), (7, 0x1C)] 3 1
      = true := by decide
/-- M7, the high word stands. -/
theorem test_mulR_side : gives (exec (.mulR 7 7) (start [(7, 100000)])) [(7, 2)] 3 1 = true := by decide
/-- M2, the side word of a negative product. -/
theorem test_mulI_negative :
    gives (exec (.mulI 0 1) (start [(0, 0xFFFFFFFF), (7, 123)])) [(0, 0xFFFFFFFF), (7, 0xFFFFFFFF)] 3 1
      = true := by decide
/-- M5. -/
theorem test_mulI_lowest :
    gives (exec (.mulI 0 (-1)) (start [(0, 0x80000000)])) [(0, 0x80000000), (7, 0)] 3 1 = true := by decide
/-- F1. -/
theorem test_divN : faultsWith (start [(1, 5)]) (exec (.divN 1) (start [(1, 5)]))
    (.arithmeticError .divideByZero) = true := by decide
/-- V13, a divisor that is negative. -/
theorem test_divR :
    gives (exec (.divR 4 3) (start [(4, 5), (3, -14)])) [(4, 0), (7, 5), (3, -14)] 4 1 = true := by decide
/-- V10: both inputs are the values from before, and the remainder stands in register 7. -/
theorem test_divR_side : gives (exec (.divR 7 7) (start [(7, 5)])) [(7, 0)] 4 1 = true := by decide
/-- V3. -/
theorem test_divI_negative :
    gives (exec (.divI 0 2) (start [(0, -7)])) [(0, 0xFFFFFFFD), (7, 0xFFFFFFFF)] 4 1 = true := by decide
/-- V11, both settings. -/
theorem test_divI_overflow :
    gives (exec (.divI 0 (-1)) (start [(0, 0x80000000)])) [(0, 0x80000000), (7, 0)] 4 1 = true ∧
    faultsWith { start [(0, 0x80000000)] with config := { Config.recommended with divOverflow := .fault } }
      (exec (.divI 0 (-1))
        { start [(0, 0x80000000)] with config := { Config.recommended with divOverflow := .fault } })
      (.arithmeticError .divideOverflow) = true := by decide
/-- T1. -/
theorem test_end : exec .endE State.reset =
    .next { State.reset with isRunning := false, cycleCount := 1, instructionCount := 1, pc := 1 } := by rfl

/-! ## The front end -/

/-- P1 to P5 of 95_test_vectors.md. -/
theorem test_accepted_spellings :
    parseLine Config.recommended "mov r0, 10" = .ok (.movI 0 10) ∧
    parseLine Config.recommended "MOV R5: r6" = .ok (.movR 5 6) ∧
    parseLine Config.recommended "Add r5 -8" = .ok (.addI 5 (-8)) ∧
    parseLine Config.recommended "  sub   r1,   r2,  " = .ok (.subR 1 2) ∧
    parseLine Config.recommended "mul r2" = .ok (.mulN 2) := by decide
/-- P6 to P9 and T6. -/
theorem test_accepted_spellings_more :
    parseLine Config.recommended "EnD" = .ok .endE ∧
    parseLine Config.recommended "div r7, R7" = .ok (.divR 7 7) ∧
    parseLine Config.recommended "mov r0, -0" = .ok (.movI 0 0) ∧
    parseLine Config.recommended "mov r0, 007" = .ok (.movI 0 7) ∧
    parseLine Config.recommended "end r1, 5" = .ok .endE := by decide
/-- F5 to F8. -/
theorem test_rejected_lines :
    parseLine Config.recommended "jmp r0" = .error .invalidOpcode ∧
    parseLine Config.recommended "mov r8, 1" = .error .invalidRegister ∧
    parseLine Config.recommended "mov r0, r9" = .error .invalidRegister ∧
    parseLine Config.recommended "mov r0, 0x10" = .error .invalidImmediate := by decide
/-- F9 to F12, F17. -/
theorem test_rejected_lines_more :
    parseLine Config.recommended "mov r0, 12," = .error .invalidImmediate ∧
    parseLine Config.recommended "mov r0,10" = .error .invalidRegister ∧
    parseLine Config.recommended "div r9, 0" = .error .invalidRegister ∧
    parseLine Config.recommended "add" = .error .malformedLine ∧
    parseLine Config.recommended "mov r12, 1" = .error .invalidRegister := by decide
/-- F13 to F15, the recommended settings. -/
theorem test_policies_reject :
    parseLine Config.recommended "add r0, r1, r2" = .error .malformedLine ∧
    parseLine Config.recommended "mov r0, 2147483648" = .error .invalidImmediate ∧
    parseLine Config.recommended "mov r0, +5" = .error .invalidImmediate := by decide
/-- F13 to F15, the other settings. -/
theorem test_policies_permit :
    parseLine { Config.recommended with extraToken := .ignore } "add r0, r1, r2" = .ok (.addR 0 1) ∧
    parseLine { Config.recommended with immRange := .wrap } "mov r0, 2147483648" = .ok (.movI 0 0x80000000) ∧
    parseLine { Config.recommended with plusSign := .accept } "mov r0, +5" = .ok (.movI 0 5) := by decide
theorem test_canonical_line : canonicalLine (.addI 5 (-8)) = "add r5, -8" := by decide

/-! ## Steps and runs -/

/-- The next state, or the state itself where no step is taken. -/
def afterStep (s : State) : State := State.runFor 1 s

/-- A line of text at the pc is parsed and executed. -/
theorem test_step_runs_a_line :
    gives (step (State.beginRun Config.recommended [.line "mov r1, -1"])) [(1, 0xFFFFFFFF)] 1 1 = true := by decide
/-- F10: the record names the line and its index. -/
theorem test_step_takes_a_parse_fault :
    (afterStep (State.beginRun Config.recommended [.line "mov r0,10"])).fault =
      some { kind := .parseError .invalidRegister, atPc := 0, text := some "mov r0,10" } := by decide
/-- F16. -/
theorem test_step_refuses_a_port_opcode :
    (afterStep (State.beginRun Config.recommended
      [.port { op := 6#4, dst := 0#3, operand := .imm 1, text := none }])).fault =
      some { kind := .parseError .invalidOpcode, atPc := 0, text := none } := by decide
/-- T5. -/
theorem test_reset_is_exhausted : step State.reset = .fault .exhausted := by rfl
/-- The host's placement: the word of E4 at reset. -/
theorem test_placed_word_is_fetched :
    (State.reset.withFetchWord 32 0x20200000).fetch = .ok (.port (portOf (.addR 0 1))) := by decide
theorem test_placed_unassigned_word_is_not_run :
    step (State.reset.withFetchWord 32 0x60000000) = .fault .exhausted := by rfl

/-- Two elements, the first a `mov`, at the second of them. -/
def midway (second : Instr) : State :=
  afterStep (State.beginRun Config.recommended [.port (portOf (.movI 0 5)), .port (portOf second)])

/-- The codes of 60_exceptions.md R100, read at the observation port; a state without a fault reads 0. -/
theorem test_fault_codes :
    State.reset.report.faultCode = 0 ∧
    ([.arithmeticError .divideByZero, .parseError .invalidOpcode, .parseError .invalidRegister,
      .parseError .invalidImmediate, .parseError .malformedLine, .arithmeticError .divideOverflow].map
        fun k => (State.reset.raise k).report.faultCode) = [1, 2, 3, 4, 5, 6] := by decide

/-! ## Each statement's hypotheses are met -/

/-- DecodeInvertsEncodeOnFaithfulInstructions, at both ends of the faithful immediates. -/
theorem test_meets_word_faithful :
    (Instr.divI 7 (-32768)).wordFaithful = true ∧ (Instr.mulI 0 32767).wordFaithful = true ∧
    (Instr.addN 3).wordFaithful = true ∧ (Instr.subR 3 1).wordFaithful = true ∧
    immFaithful (-32769) = false ∧ immFaithful 32768 = false := by decide
/-- DecoderAcceptsExactlyTheEncodersWords: a word that is decoded; and one that is not. -/
theorem test_meets_decoded_word :
    decode 0x5CE00000#32 = .ok (.divR 6 7) ∧ matchesRow 0x5CE00000#32 = true ∧
    matchesRow 0x60000000#32 = false := by decide
/-- EncodedFieldsStandInTheirBits: an operation other than `end`, and `end`. -/
theorem test_meets_other_than_end : Opcode.mov ≠ .endOp ∧ Opcode.endOp = .endOp := by decide
/-- BinaryDisplayIsTheBinaryNumeral: the first and the last character, and a word that shows as it does. -/
theorem test_meets_display :
    (binaryDisplay 0x80000000#32).toList[0]? = some '1' ∧ (binaryDisplay 0x80000000#32).toList[31]? = some '0' ∧
    (0 < 32 ∧ 31 < 32) := by decide
/-- TraceHandsOverTextAndWord, StepRunsTheAcceptedInstruction: an accepted line and an accepted port element. -/
theorem test_meets_accepted_element :
    ((State.beginRun Config.recommended [.line "mov r0, 10"]).canStep ∧
      (State.beginRun Config.recommended [.line "mov r0, 10"]).prog[0]? = some (.line "mov r0, 10") ∧
      accept Config.recommended (.line "mov r0, 10") = .ok (.movI 0 10)) ∧
    ((midway (.divN 0)).canStep ∧
      (midway (.divN 0)).prog[(midway (.divN 0)).pc]? = some (.port (portOf (.divN 0))) ∧
      accept Config.recommended (.port (portOf (.divN 0))) = .ok (.divN 0)) :=
  ⟨⟨⟨rfl, rfl, by decide⟩, rfl, by decide⟩, ⟨rfl, rfl, by decide⟩, rfl, by decide⟩
/-- TraceHandsOverTextAndWord, RejectedElementTakesItsParseFault: a rejected element where a step is taken. -/
theorem test_meets_rejected_element :
    (State.beginRun Config.recommended [.line "jmp r0"]).canStep ∧
    (State.beginRun Config.recommended [.line "jmp r0"]).prog[0]? = some (.line "jmp r0") ∧
    accept Config.recommended (.line "jmp r0") = .error .invalidOpcode :=
  ⟨⟨rfl, rfl, by decide⟩, rfl, by decide⟩
/-- TraceHandsOverTextAndWord, StepIsTakenExactlyWhenEnabled: a state in which no step is taken. -/
theorem test_meets_no_step : ¬ State.reset.canStep := fun h => absurd h.2.2 (by decide)
/-- DivWritesQuotientAndRemainder, at -2147483648 / 1, -2147483647 / -1 and 5 / -2147483648. -/
theorem test_meets_division_without_fault :
    ((start [(0, 0x80000000), (1, 1)]).readReg 1 ≠ 0 ∧
      ¬ ((start [(0, 0x80000000), (1, 1)]).readReg 0 = 0x80000000#32 ∧
         (start [(0, 0x80000000), (1, 1)]).readReg 1 = 0xFFFFFFFF#32)) ∧
    ((0xFFFFFFFF#32 : Word) ≠ 0 ∧
      ¬ ((start [(0, 0x80000001)]).readReg 0 = 0x80000000#32 ∧ (0xFFFFFFFF#32 : Word) = 0xFFFFFFFF#32)) ∧
    ((0x80000000#32 : Word) ≠ 0 ∧
      ¬ ((start [(0, 5)]).readReg 0 = 0x80000000#32 ∧ (0x80000000#32 : Word) = 0xFFFFFFFF#32)) := by decide
/-- DivFaultsOnAZeroOperand: a source register that is 0. -/
theorem test_meets_zero_operand : (start [(1, 5)]).readReg 0 = 0 := by decide
/-- DivOverflowFollowsItsPolicy: the dividend, the source and each setting. -/
theorem test_meets_overflow :
    (start [(0, 0x80000000), (1, 0xFFFFFFFF)]).readReg 0 = 0x80000000#32 ∧
    (start [(0, 0x80000000), (1, 0xFFFFFFFF)]).readReg 1 = 0xFFFFFFFF#32 ∧
    (start [(0, 0x80000000), (1, 0xFFFFFFFF)]).config.divOverflow = .wrap ∧
    ({ start [(0, 0x80000000), (1, 0xFFFFFFFF)] with
        config := { Config.recommended with divOverflow := .fault } } : State).config.divOverflow = .fault ∧
    ({ start [(0, 0x80000000), (1, 0xFFFFFFFF)] with
        config := { Config.recommended with divOverflow := .fault } } : State).readReg 0 = 0x80000000#32 := by
  decide
/-- SideResultStandsInRegisterSeven: no fault; destinations 6 and 7. -/
theorem test_meets_side_result :
    divFault (start [(6, 17)]).config.divOverflow ((start [(6, 17)]).readReg 6)
      ((start [(6, 17)]).operandValue (.imm 5)) = none ∧ (6 : RegIdx) ≠ 7 ∧
    divFault (start [(7, 17)]).config.divOverflow ((start [(7, 17)]).readReg 7)
      ((start [(7, 17)]).operandValue (.imm 5)) = none := by decide
/-- InstructionsWithOneWordExecuteDifferently: register 0 is not 0. -/
theorem test_meets_register_zero_not_zero : (start [(0, 4)]).readReg 0 ≠ 0 := by decide
/-- PlacedWordRunsItsDecodedInstruction: the words of `end` and of `div r6, r7`. -/
theorem test_meets_decoded_table_word :
    decodeTableWord 32 0 = some .endE ∧ decodeTableWord 32 0x5CE00000 = some (.divR 6 7) := by decide
/-- StepKeeps and every statement about a completed step: a step that completes and does not stop the engine. -/
theorem test_meets_completed_step :
    ∃ t, step (midway (.addI 0 1)) = .next t ∧ t.fault = none ∧ t.isRunning = true ∧
      t.readReg 0 ≠ (midway (.addI 0 1)).readReg 0 := ⟨_, rfl, rfl, rfl, by decide⟩
/-- OnlyEndStopsTheEngine, ElementsAfterEndAreNeverExamined: a step after which the engine is halted. -/
theorem test_meets_halting_step :
    ∃ t, step (midway .endE) = .next t ∧ t.isRunning = false ∧ t.fault = none := ⟨_, rfl, rfl, rfl⟩
/-- RegistersChangeOnlyByTheirInstruction: the side register changes. -/
theorem test_meets_side_register_change :
    ∃ t, step (midway (.mulI 0 0x7FFFFFFF)) = .next t ∧ t.readReg 7 ≠ (midway (.mulI 0 0x7FFFFFFF)).readReg 7 :=
  ⟨_, rfl, by decide⟩
/-- FaultsArePreciseAndFinal, PcAdvancesExactlyByCompletion: a step that takes a fault. -/
theorem test_meets_faulting_step :
    ∃ t f, step (midway (.divN 0)) = .next t ∧ t.fault = some f ∧
      f.kind = .arithmeticError .divideByZero := ⟨_, _, rfl, rfl, rfl⟩
/-- RunInvariantKeptByEveryStep, CyclesLieBetweenOneAndFourPerInstruction: a state inside a run, from which the
next step completes, halts or faults as the second element says (the three theorems above). -/
theorem test_meets_run_invariant (second : Instr) : RunInvariant (midway second) where
  pc_le := by show 1 ≤ 2; decide
  count_eq := rfl
  accepted := fun item h => ⟨.movI 0 5, by rw [List.mem_singleton.1 (show item ∈ [_] from h)]; rfl⟩
  cycles_eq := rfl
  running := fun _ item h => by
    rw [List.mem_singleton.1 (show item ∈ [_] from h)]
    show Except.ok (Instr.movI 0 5) ≠ .ok .endE
    simp
  halted := fun h => absurd h (by simp [midway, afterStep, State.runFor, step, State.fetch, State.beginRun,
    State.reset, accept, acceptPort, portOf, Opcode.ofBits, Opcode.bits, Instr.opcode, Instr.dst, Instr.operand,
    Instr.ofFields, exec, execMovI, applyMov, State.writeReg, State.complete])
  recorded := fun f h => absurd (show none = some f from h) (by simp)
/-- CyclesLieBetweenOneAndFourPerInstruction, CpiIsTheExactQuotient: CPI is defined. -/
theorem test_meets_cpi (second : Instr) : ∃ q, (midway second).cpi = some q := ⟨_, rfl⟩
/-- RunsEndWithinTheSequence: the bound itself. -/
theorem test_meets_bound : (midway .endE).prog.length - (midway .endE).pc ≤ 1 := by decide
/-- TerminatedRunsAreNeverExhausted: the `end` is the last element, in upper case. -/
theorem test_meets_terminated : Terminated Config.recommended [.line "mov r0, 1", .line "END"] :=
  ⟨.line "END", by simp, by decide⟩
/-- ElementsAfterEndAreNeverExamined: an element that is an `end`. -/
theorem test_meets_end_element : accept Config.recommended (.line "end r1, 5") = .ok .endE := by decide
/-- PortTextIsNeverExecuted: a step on an element with text. -/
theorem test_meets_port_text :
    ∃ t, step (State.beginRun Config.recommended
      [.port { op := 5#4, dst := 1#3, operand := .none, text := some "div r1" }]) = .next t ∧
      t.fault.map FaultRecord.text = some (some "div r1") := ⟨_, rfl, rfl⟩
/-- RunsOfBlanksAreInterchangeable: a tab, and two spaces. -/
theorem test_meets_blank_runs :
    Blank ['\t'] ∧ Blank [' ', ' '] ∧ ['\t'] ≠ ([] : List Char) ∧ [' ', ' '] ≠ ([] : List Char) := by
  simp [Blank]
/-- FirstOffendingTokenNamesTheFault: tokens for every clause. -/
theorem test_meets_tokens :
    opcodeOfToken ['j', 'm', 'p'] = none ∧ opcodeOfToken ['E', 'n', 'd'] = some .endOp ∧
    opcodeOfToken ['m', 'o', 'v'] = some .mov ∧ Opcode.mov ≠ .endOp ∧ parseReg ['r', '8'] = none ∧
    parseReg ['r', '7', ','] = some 7 ∧ startsWithR ['r', '9'] = true ∧ parseReg ['r', '9'] = none ∧
    startsWithR ['1', ','] = false ∧ parseImm Config.recommended ['1', ','] = none ∧
    parseOperand Config.recommended ['4'] = .ok (.imm 4) ∧ [['r', '2']] ≠ ([] : List Token) ∧
    Config.recommended.extraToken = .reject := by decide
/-- PermissivePoliciesOnlyAcceptMore, AcceptedLinesAreTheGrammar: an accepted line. -/
theorem test_meets_accepted_line :
    parseChars Config.recommended ['a', 'd', 'd', ' ', 'r', '3'] = .ok (.addN 3) := by decide
/-- LiteralsAreReadInRangeOrByPolicy: an operation, and a literal at each end of the range and beyond it. -/
theorem test_meets_literals :
    Opcode.mov ≠ .endOp ∧
    parseLine Config.recommended "mov r0, -2147483648" = .ok (.movI 0 0x80000000) ∧
    parseLine Config.recommended "mov r0, -2147483649" = .error .invalidImmediate ∧
    parseLine Config.recommended "mov r0, 2147483647" = .ok (.movI 0 0x7FFFFFFF) := by decide
/-- PortChecksTheOpcodeAlone: the values 0, 5 and 6. -/
theorem test_meets_port_opcodes :
    acceptPort { op := 0#4, dst := 7#3, operand := .imm 9, text := none } = .ok .endE ∧
    acceptPort { op := 5#4, dst := 7#3, operand := .imm 9, text := none } = .ok (.divI 7 9) ∧
    acceptPort { op := 6#4, dst := 7#3, operand := .imm 9, text := none } = .error .invalidOpcode := by decide

end Sys2Proof.Tests
end

section
/-!
PROOFS. The run flag (10_state.md R17): what one execution and one step make of it.
-/
namespace Sys2Proof.Machine

/-- An execution leaves the run flag alone, unless the instruction is `end`, which clears it (43_end.md R90). -/
theorem exec_isRunning_eq_false_iff {i : Instr} {s t : State} (h : exec i s = .next t) :
    t.isRunning = false ↔ i = .endE ∨ s.isRunning = false := by
  have hend (hop : i.opcode ≠ .endOp) : i ≠ .endE := fun he => hop (he ▸ rfl)
  rcases exec_next_cases h with ⟨hi, rfl⟩ | ⟨v, hop, rfl⟩ | ⟨lo, hi, hop, rfl⟩ | ⟨k, hop, -, rfl⟩
  · simp [hi]
  · simp [hend (by rcases hop with hop | hop | hop <;> simp [hop])]
  · simp [hend (by rcases hop with hop | hop <;> simp [hop])]
  · simp [hend (by simp [hop])]

/-- A step is taken only in a Running engine (40_execution_step.md R60). -/
theorem isRunning_of_step_next {s t : State} (h : step s = .next t) : s.isRunning = true :=
  (step_next_cases h).1

/-- The step that halts the engine is the one whose element is accepted as `end`; taking a fault, of the front end
or of `div`, leaves the flag set (60_exceptions.md R109). -/
theorem step_clears_isRunning_iff {s t : State} (h : step s = .next t) :
    t.isRunning = false ↔ ∃ item, s.prog[s.pc]? = some item ∧ accept s.config item = .ok .endE := by
  obtain ⟨hrun, -, item, hitem, ⟨k, hacc, rfl⟩ | ⟨i, hacc, hexec⟩⟩ := step_next_cases h
  · simp [hrun, hitem, hacc]
  · simp [exec_isRunning_eq_false_iff hexec, hrun, hitem, hacc]

end Sys2Proof.Machine

namespace Sys2Proof.Proofs
open Sys2Proof.Machine

/-- Settles O27: the flag is set in every state that steps, so a state in which it is clear takes no step. -/
theorem onlyEndStopsTheEngine : Obligations.OnlyEndStopsTheEngine := by
  refine ⟨rfl, fun s t h => ⟨isRunning_of_step_next h, step_clears_isRunning_iff h, ?_⟩⟩
  intro hhalted u hu
  simp [isRunning_of_step_next hu] at hhalted

end Sys2Proof.Proofs
end

section
/-!
PROOFS. The fields of an encoded word (30_encoding.md R42 to R48): what stands in each bit field, and which bits are
reserved, by the form of the instruction.
-/
namespace Sys2Proof

/-- Reserved bits at the low end of a word as arithmetic. -/
theorem low_bits_eq_zero_iff {m : Nat} (w : BitVec m) (n : Nat) :
    w.extractLsb' 0 n = 0 ↔ w.toNat % 2 ^ n = 0 := by
  simp [eq_iff_toNat]

/-- Form `E` (30_encoding.md R48). -/
@[simp] theorem encodeFields_endOp (d : RegIdx) (o : Operand) : encodeFields .endOp d o = 0#32 := rfl

section
variable {op : Opcode} (h : op ≠ .endOp) (d : RegIdx)
include h

/-- In every form but `E`, mode and operand together fill only the 25 bits below the destination. -/
theorem encodeFields_toNat_eq_opcode_dst_low (o : Operand) :
    ∃ low < 2 ^ 25, (encodeFields op d o).toNat = op.bits.toNat * 2 ^ 28 + d.toNat * 2 ^ 25 + low := by
  cases o with
  | none => exact ⟨0, by decide, by rw [encodeFields_none_toNat h, Nat.add_zero]⟩
  | reg s => exact ⟨s.toNat * 2 ^ 21, by omega, encodeFields_reg_toNat h d s⟩
  | imm v => exact ⟨2 ^ 24 + v.toNat % 2 ^ 16 * 2 ^ 8, by omega, by rw [encodeFields_imm_toNat h]; omega⟩

/-- The destination field (30_encoding.md R43). -/
theorem encodeFields_dst_field (o : Operand) : (encodeFields op d o).extractLsb' 25 3 = d := by
  obtain ⟨low, hlow, hword⟩ := encodeFields_toNat_eq_opcode_dst_low h d o
  rw [eq_iff_toNat, extract_toNat, hword]
  omega

/-- Form `N`: mode, source field and reserved bits are all 0 (30_encoding.md R44, R47). -/
theorem encodeFields_none_low_bits : (encodeFields op d .none).extractLsb' 0 25 = 0 := by
  rw [low_bits_eq_zero_iff, encodeFields_none_toNat h]
  omega

/-- Form `R`: the mode bit (30_encoding.md R44). -/
theorem encodeFields_reg_mode_bit (s : RegIdx) : (encodeFields op d (.reg s)).getLsbD 24 = false := by
  rw [bit_false_iff, encodeFields_reg_toNat h]
  omega

/-- Form `R`: the source field (30_encoding.md R46). -/
theorem encodeFields_reg_src_field (s : RegIdx) : (encodeFields op d (.reg s)).extractLsb' 21 3 = s := by
  rw [eq_iff_toNat, extract_toNat, encodeFields_reg_toNat h]
  omega

/-- Form `R`: the reserved bits (30_encoding.md R47). -/
theorem encodeFields_reg_reserved_bits (s : RegIdx) : (encodeFields op d (.reg s)).extractLsb' 0 21 = 0 := by
  rw [low_bits_eq_zero_iff, encodeFields_reg_toNat h]
  omega

/-- Form `I`: the mode bit (30_encoding.md R44). -/
theorem encodeFields_imm_mode_bit (v : Word) : (encodeFields op d (.imm v)).getLsbD 24 = true := by
  rw [bit_iff, encodeFields_imm_toNat h]
  omega

/-- Form `I`: the immediate field holds the low 16 bits of the immediate (30_encoding.md R45). -/
theorem encodeFields_imm_imm_field (v : Word) :
    (encodeFields op d (.imm v)).extractLsb' 8 16 = v.extractLsb' 0 16 := by
  rw [eq_iff_toNat, extract_toNat, extract_toNat, encodeFields_imm_toNat h]
  omega

/-- Form `I`: the reserved bits (30_encoding.md R47). -/
theorem encodeFields_imm_reserved_bits (v : Word) : (encodeFields op d (.imm v)).extractLsb' 0 8 = 0 := by
  rw [low_bits_eq_zero_iff, encodeFields_imm_toNat h]
  omega

end

/-- The opcode field, in every form (30_encoding.md R42). -/
theorem encodeFields_opcode_field (op : Opcode) (d : RegIdx) (o : Operand) :
    (encodeFields op d o).extractLsb' 28 4 = op.bits := by
  by_cases h : op = .endOp
  · subst h
    rw [encodeFields_endOp]
    rfl
  · obtain ⟨low, hlow, hword⟩ := encodeFields_toNat_eq_opcode_dst_low h d o
    rw [eq_iff_toNat, extract_toNat, hword]
    omega

end Sys2Proof

namespace Sys2Proof.Proofs

/-- Settles O2, by the encoder's equation for form `E`; the instruction `end` is a case of it. -/
theorem endEncodesToTheZeroWord : Obligations.EndEncodesToTheZeroWord :=
  ⟨encodeFields_endOp, encodeFields_endOp _ _⟩

/-- Settles O3, field by field; the bits below the destination go by the operand's form. -/
theorem encodedFieldsStandInTheirBits : Obligations.EncodedFieldsStandInTheirBits := by
  intro op d o
  refine ⟨?opcode, ?endForm, fun h => ⟨encodeFields_dst_field h d o, ?operand⟩⟩
  case opcode =>
    rw [encodeFields_opcode_field]
    cases op <;> rfl
  case endForm =>
    rintro rfl
    rw [encodeFields_endOp]
    rfl
  case operand =>
    cases o with
    | none => exact encodeFields_none_low_bits h d
    | reg s =>
      exact ⟨encodeFields_reg_mode_bit h d s, encodeFields_reg_src_field h d s, encodeFields_reg_reserved_bits h d s⟩
    | imm v =>
      exact ⟨encodeFields_imm_mode_bit h d v, encodeFields_imm_imm_field h d v, encodeFields_imm_reserved_bits h d v⟩

end Sys2Proof.Proofs
end

section
/-!
PROOFS. One step of the engine: when it is taken (40_execution_step.md R60), what a completed one counts and costs
(R64, R65), and the operand value it reads (R62).
-/
namespace Sys2Proof.Machine

/-- Every instruction has a meaning in every state: an arithmetic fault, too, is a next state (60_exceptions.md R109). -/
theorem exec_eq_next (i : Instr) (s : State) : ∃ t, exec i s = .next t := by
  rw [exec_by_opcode]
  cases i.opcode with
  | endOp | mov | add | sub | mul => exact ⟨_, rfl⟩
  | div =>
    cases hf : divFault s.config.divOverflow (s.readReg i.dst) (s.operandValue i.operand) with
    | none => exact ⟨_, applyDiv_of_no_fault hf⟩
    | some k => exact ⟨_, applyDiv_of_fault hf⟩

/-- The enabled engine takes a step whatever the element at the pc is: it is executed or takes its parse fault. -/
theorem step_eq_next_of_canStep {s : State} (h : s.canStep) : ∃ t, step s = .next t := by
  obtain ⟨hrun, hfault, hpc⟩ := h
  have hitem : s.prog[s.pc]? = some s.prog[s.pc] := List.getElem?_eq_getElem hpc
  cases hacc : accept s.config s.prog[s.pc] with
  | error k => exact ⟨_, step_of_rejected hrun hfault hitem hacc⟩
  | ok i =>
    rw [step_of_accepted hrun hfault hitem hacc]
    exact exec_eq_next i s

/-- No step is taken but from an enabled engine (40_execution_step.md R60). -/
theorem canStep_of_step_next {s t : State} (h : step s = .next t) : s.canStep := by
  obtain ⟨hrun, hfault, item, hitem, -⟩ := step_next_cases h
  obtain ⟨hpc, -⟩ := List.getElem?_eq_some_iff.1 hitem
  exact ⟨hrun, hfault, hpc⟩

/-- A state from which no step is taken is final (40_execution_step.md R60). -/
theorem runFor_of_no_step {s : State} (h : ∀ t, step s ≠ .next t) (n : Nat) : State.runFor n s = s := by
  cases n with
  | zero => rfl
  | succ n =>
    cases hstep : step s with
    | next t => exact absurd hstep (h t)
    | fault f => simp [State.runFor, hstep]
    | refused r => simp [State.runFor, hstep]

/-- An execution that leaves no fault has reached the completion (40_execution_step.md R61 actions 4 and 5): the
instruction is counted and its cost is added. -/
theorem exec_counts_of_no_fault {i : Instr} {s t : State} (h : exec i s = .next t) (hfault : t.fault = none) :
    t.instructionCount = s.instructionCount + 1 ∧ t.cycleCount = s.cycleCount + cost i.opcode := by
  rcases exec_next_cases h with ⟨rfl, rfl⟩ | ⟨v, -, rfl⟩ | ⟨lo, hi, -, rfl⟩ | ⟨k, -, -, rfl⟩
  · exact ⟨rfl, rfl⟩
  · simp
  · simp
  · simp at hfault

/-- A step that leaves no fault has executed an accepted element: a rejected one takes its parse fault. -/
theorem exec_of_step_no_fault {s t : State} (h : step s = .next t) (hfault : t.fault = none) :
    ∃ item i, s.prog[s.pc]? = some item ∧ accept s.config item = .ok i ∧ exec i s = .next t := by
  obtain ⟨-, -, item, hitem, ⟨k, -, rfl⟩ | ⟨i, hacc, hexec⟩⟩ := step_next_cases h
  · simp at hfault
  · exact ⟨item, i, hitem, hacc, hexec⟩

end Sys2Proof.Machine

namespace Sys2Proof.Proofs
open Sys2Proof.Machine

/-- Settles O25: an enabled engine steps, only an enabled one does, and a run stays where no step is taken. -/
theorem stepIsTakenExactlyWhenEnabled : Obligations.StepIsTakenExactlyWhenEnabled := by
  intro s
  refine ⟨⟨fun ⟨_, hstep⟩ => canStep_of_step_next hstep, step_eq_next_of_canStep⟩, fun hdisabled => ?_⟩
  exact runFor_of_no_step fun _ hstep => hdisabled (canStep_of_step_next hstep)

/-- Settles O28: the step has executed an accepted instruction, whose completion counts it at its cost; the table of
costs is read off operation by operation. -/
theorem completedStepsCountAndCost : Obligations.CompletedStepsCountAndCost := by
  intro s t hstep hfault
  obtain ⟨item, i, hitem, hacc, hexec⟩ := exec_of_step_no_fault hstep hfault
  obtain ⟨hcount, hcycles⟩ := exec_counts_of_no_fault hexec hfault
  refine ⟨item, i, hitem, hacc, hcount, hcycles.trans ?_⟩
  cases i.opcode <;> rfl

/-- Settles O10, by kind of operand; that the word of `mov r0, 70000` carries only 0x1170 is the encoder's immediate
field (30_encoding.md R45). -/
theorem operandValueFollowsItsKind : Obligations.OperandValueFollowsItsKind := by
  refine ⟨State.operandValue_reg, State.operandValue_imm, State.operandValue_none, ?wide, ?wordField⟩
  case wide => exact fun s => State.operandValue_imm s _
  case wordField =>
    calc (encode (.movI 0 70000#32)).extractLsb' 8 16
        = (70000#32).extractLsb' 0 16 := encodeFields_imm_imm_field (op := .mov) (by decide) 0 70000#32
      _ = 0x1170#16 := by decide

end Sys2Proof.Proofs
end

section
/-!
PROOFS. The instructions with one result, `mov`, `add` and `sub` (41_mov_add_sub.md R70 to R72): each completes with
its result written to the destination, and the three forms differ in the operand value alone.
-/
namespace Sys2Proof.Machine

/-- An execution that writes one register and completes has the frame of 41_mov_add_sub.md R70 to R72: the other
registers, the run flag, the fault record, the sequence and the parameters stay. -/
theorem completes_of_exec_eq_writeReg {i : Instr} {s : State} {dst : RegIdx} {v : Word} {op : Opcode}
    (h : exec i s = .next ((s.writeReg dst v).complete op)) :
    Completes i s (withReg s dst v) (cost op) s.isRunning := by
  refine ⟨_, h, fun r => ?registers, ?frame⟩
  case registers => rw [State.readReg_complete, State.readReg_writeReg, withReg]
  case frame => simp

/-- `mov` in every form (41_mov_add_sub.md R70). -/
theorem completes_of_opcode_mov {i : Instr} (h : i.opcode = .mov) (s : State) :
    Completes i s (withReg s i.dst (s.operandValue i.operand)) 1 s.isRunning :=
  completes_of_exec_eq_writeReg (op := .mov) (by rw [exec_by_opcode, h, applyMov])

/-- `add` in every form (41_mov_add_sub.md R71). -/
theorem completes_of_opcode_add {i : Instr} (h : i.opcode = .add) (s : State) :
    Completes i s (withReg s i.dst (addWrap (s.readReg i.dst) (s.operandValue i.operand))) 1 s.isRunning :=
  completes_of_exec_eq_writeReg (op := .add) (by rw [exec_by_opcode, h, applyAdd])

/-- `sub` in every form (41_mov_add_sub.md R72). -/
theorem completes_of_opcode_sub {i : Instr} (h : i.opcode = .sub) (s : State) :
    Completes i s (withReg s i.dst (subWrap (s.readReg i.dst) (s.operandValue i.operand))) 1 s.isRunning :=
  completes_of_exec_eq_writeReg (op := .sub) (by rw [exec_by_opcode, h, applySub])

/-! The form without operand adds or subtracts 0: the destination is written with what it held. -/

@[simp] theorem addWrap_zero (d : Word) : addWrap d 0#32 = d := by
  simp [addWrap, wrap32, s32]

@[simp] theorem subWrap_zero (d : Word) : subWrap d 0#32 = d := by
  simp [subWrap, wrap32, s32]

@[simp] theorem withReg_readReg_self (s : State) (dst : RegIdx) : withReg s dst (s.readReg dst) = s.readReg := by
  funext r
  by_cases h : r = dst <;> simp [withReg, h]

end Sys2Proof.Machine

namespace Sys2Proof.Proofs
open Sys2Proof.Machine

/-- Settles O11: the operand value is 0, the source register or the immediate, by the form. -/
theorem movCopiesTheOperandValue : Obligations.MovCopiesTheOperandValue := by
  intro s dst
  refine ⟨?noOperand, fun src => ?register, fun v => ?immediate⟩
  case noOperand => exact completes_of_opcode_mov (i := .movN dst) rfl s
  case register => exact completes_of_opcode_mov (i := .movR dst src) rfl s
  case immediate => exact completes_of_opcode_mov (i := .movI dst v) rfl s

/-- Settles O12; without operand the sum is the old value, and the write changes no register. -/
theorem addWritesTheWrappedSum : Obligations.AddWritesTheWrappedSum := by
  intro s dst
  refine ⟨?noOperand, fun src => ?register, fun v => ?immediate⟩
  case noOperand => simpa [Instr.dst, Instr.operand] using completes_of_opcode_add (i := .addN dst) rfl s
  case register => exact completes_of_opcode_add (i := .addR dst src) rfl s
  case immediate => exact completes_of_opcode_add (i := .addI dst v) rfl s

/-- Settles O13; without operand the difference is the old value, and the write changes no register. -/
theorem subWritesTheWrappedDifference : Obligations.SubWritesTheWrappedDifference := by
  intro s dst
  refine ⟨?noOperand, fun src => ?register, fun v => ?immediate⟩
  case noOperand => simpa [Instr.dst, Instr.operand] using completes_of_opcode_sub (i := .subN dst) rfl s
  case register => exact completes_of_opcode_sub (i := .subR dst src) rfl s
  case immediate => exact completes_of_opcode_sub (i := .subI dst v) rfl s

end Sys2Proof.Proofs
end

section
/-!
PROOFS. The instructions with two results, `mul` and `div` (42_mul_div.md R80 to R82): a completed one writes its
primary result to the destination and then its side result to register 7, and the two words of `mul` are the exact
signed product.
-/
namespace Sys2Proof.Machine

/-- The signed value of a word lies within ±2^31 (00_scope.md section 6). -/
theorem abs_toInt_le (v : Word) : |v.toInt| ≤ 2 ^ 31 :=
  abs_le.2 ⟨BitVec.le_toInt v, BitVec.toInt_lt.le⟩

/-- 64 bits hold every signed product, so wrapping loses nothing (42_mul_div.md R80). -/
theorem toInt_product (d v : Word) : (product d v).toInt = d.toInt * v.toInt := by
  have hbound : |d.toInt * v.toInt| ≤ 2 ^ 62 := by
    calc |d.toInt * v.toInt| = |d.toInt| * |v.toInt| := abs_mul _ _
      _ ≤ 2 ^ 31 * 2 ^ 31 := mul_le_mul (abs_toInt_le d) (abs_toInt_le v) (abs_nonneg _) (by norm_num)
      _ = 2 ^ 62 := by norm_num
  obtain ⟨hlow, hhigh⟩ := abs_le.1 hbound
  rw [product, wrap64, s32, s32, BitVec.toInt_ofInt_eq_self] <;> omega

/-- The two results of `mul` are the halves of the 64-bit product (42_mul_div.md R80, R85). -/
theorem mulHigh_append_mulLow (d v : Word) : mulHigh d v ++ mulLow d v = product d v :=
  BitVec.extractLsb'_append_extractLsb'

theorem toInt_mulHigh_append_mulLow (d v : Word) : (mulHigh d v ++ mulLow d v).toInt = d.toInt * v.toInt := by
  rw [mulHigh_append_mulLow, toInt_product]

/-! The form without operand multiplies by 0. -/

@[simp] theorem product_zero (d : Word) : product d 0#32 = 0#64 := by
  simp [product, wrap64, s32]

@[simp] theorem mulLow_zero (d : Word) : mulLow d 0#32 = 0#32 := by
  simp [mulLow]

@[simp] theorem mulHigh_zero (d : Word) : mulHigh d 0#32 = 0#32 := by
  simp [mulHigh]

/-! The two writes (42_mul_div.md R82). -/

@[simp] theorem withPair_seven (s : State) (dst : RegIdx) (lo hi : Word) : withPair s dst lo hi 7 = hi := by
  simp [withPair]

theorem withPair_dst {dst : RegIdx} (h : dst ≠ 7) (s : State) (lo hi : Word) : withPair s dst lo hi dst = lo := by
  rw [withPair, if_neg h, if_pos rfl]

/-- An execution that writes the pair and completes has the frame of 42_mul_div.md R80 and R81: the other registers,
the run flag, the fault record, the sequence and the parameters stay. -/
theorem completes_of_exec_eq_writePair {i : Instr} {s : State} {dst : RegIdx} {lo hi : Word} {op : Opcode}
    (h : exec i s = .next ((s.writePair dst lo hi).complete op)) :
    Completes i s (withPair s dst lo hi) (cost op) s.isRunning := by
  refine ⟨_, h, fun r => ?registers, ?frame⟩
  case registers => rw [State.readReg_complete, State.readReg_writePair, withPair]
  case frame => simp

/-- `mul` in every form (42_mul_div.md R80). -/
theorem completes_of_opcode_mul {i : Instr} (h : i.opcode = .mul) (s : State) :
    Completes i s (withPair s i.dst (mulLow (s.readReg i.dst) (s.operandValue i.operand))
      (mulHigh (s.readReg i.dst) (s.operandValue i.operand))) 3 s.isRunning :=
  completes_of_exec_eq_writePair (op := .mul) (by rw [exec_by_opcode, h, applyMul])

/-- `div` in every form, where the result handler indicates no fault (42_mul_div.md R81). -/
theorem completes_of_opcode_div {i : Instr} (h : i.opcode = .div) {s : State}
    (hfault : divFault s.config.divOverflow (s.readReg i.dst) (s.operandValue i.operand) = none) :
    Completes i s (withPair s i.dst (divQuotient (s.readReg i.dst) (s.operandValue i.operand))
      (divRemainder (s.readReg i.dst) (s.operandValue i.operand))) 4 s.isRunning :=
  completes_of_exec_eq_writePair (op := .div) (by rw [exec_by_opcode, h, applyDiv_of_no_fault hfault])

/-- After the two writes register 7 holds the side result, and any other destination the primary one
(42_mul_div.md R82). -/
theorem exec_results_of_completes_withPair {i : Instr} {s : State} {dst : RegIdx} {lo hi : Word} {n : Nat}
    {running : Bool} (h : Completes i s (withPair s dst lo hi) n running) :
    ∃ t, exec i s = .next t ∧ t.readReg 7 = hi ∧ (dst ≠ 7 → t.readReg dst = lo) := by
  obtain ⟨t, hexec, hregs, -⟩ := h
  exact ⟨t, hexec, by rw [hregs, withPair_seven], fun hdst => by rw [hregs, withPair_dst hdst]⟩

end Sys2Proof.Machine

namespace Sys2Proof.Proofs
open Sys2Proof.Machine

/-- Settles O15: the two words are the halves of the product, which 64 bits hold exactly; without operand the product
is 0. -/
theorem mulWritesTheSignedProductInTwoWords : Obligations.MulWritesTheSignedProductInTwoWords := by
  intro s dst
  refine ⟨?noOperand, fun src => ?register, fun v => ?immediate⟩
  case noOperand => simpa [Instr.dst, Instr.operand] using completes_of_opcode_mul (i := .mulN dst) rfl s
  case register =>
    exact ⟨_, _, toInt_mulHigh_append_mulLow _ _, completes_of_opcode_mul (i := .mulR dst src) rfl s⟩
  case immediate =>
    exact ⟨_, _, toInt_mulHigh_append_mulLow _ _, completes_of_opcode_mul (i := .mulI dst v) rfl s⟩

/-- Settles O19: both operations complete with the pair written, destination first, from the values before the step. -/
theorem sideResultStandsInRegisterSeven : Obligations.SideResultStandsInRegisterSeven := by
  intro s dst o
  have hmul := completes_of_opcode_mul (Instr.opcode_ofFields .mul dst o) s
  have hdiv := completes_of_opcode_div (Instr.opcode_ofFields .div dst o) (s := s)
  rw [Instr.dst_ofFields (by decide), Instr.operand_ofFields (by decide)] at hmul hdiv
  exact ⟨exec_results_of_completes_withPair hmul, fun hfault => exec_results_of_completes_withPair (hdiv hfault)⟩

end Sys2Proof.Proofs
end

section
/-!
PROOFS. `end` (43_end.md R90), and why nothing after it matters (R91): a step reads the sequence at the pc alone, and
a run never gets past its first `end`.
-/
namespace Sys2Proof.Machine

/-- `end` halts and completes; nothing else of the state is touched (43_end.md R90). -/
theorem completes_endE (s : State) : Completes .endE s s.readReg 1 false := by
  refine ⟨s.halt.complete .endOp, exec_by_opcode .endE s, fun r => ?registers, ?frame⟩
  case registers => rw [State.readReg_complete, State.readReg_halt]
  case frame => simp [cost]

/-! A halted engine. -/

theorem step_ne_next_of_halted {s : State} (h : s.isRunning = false) (t : State) : step s ≠ .next t := by
  intro hstep
  simp [isRunning_of_step_next hstep] at h

theorem fetch_of_halted {s : State} (h : s.isRunning = false) : s.fetch = .error .halted := by
  simp [State.fetch, h]

theorem traceOut_of_halted {s : State} (h : s.isRunning = false) : s.traceOut = none := by
  simp [State.traceOut, fetch_of_halted h]

/-! What every step does to the pc, the sequence and the parameters. -/

/-- The pc advances by one or, on a fault, stays (40_execution_step.md R66, R68). -/
theorem pc_le_of_step_next {s t : State} (h : step s = .next t) : t.pc ≤ s.pc + 1 := by
  obtain ⟨-, -, item, -, ⟨k, -, rfl⟩ | ⟨i, -, hexec⟩⟩ := step_next_cases h
  · simp
  · rcases exec_next_cases hexec with ⟨-, rfl⟩ | ⟨v, -, rfl⟩ | ⟨lo, hi, -, rfl⟩ | ⟨k, -, -, rfl⟩ <;> simp

theorem step_keeps_run {s t : State} (h : step s = .next t) : t.prog = s.prog ∧ t.config = s.config := by
  obtain ⟨-, -, item, -, ⟨k, -, rfl⟩ | ⟨i, -, hexec⟩⟩ := step_next_cases h
  · simp
  · exact exec_keeps_run hexec

/-! The same state over another sequence. -/

/-- The state with its sequence replaced. -/
def State.withProg (s : State) (prog : List ProgItem) : State := { s with prog := prog }

section
variable (s : State) (prog : List ProgItem)

@[simp] theorem State.withProg_isRunning : (s.withProg prog).isRunning = s.isRunning := rfl
@[simp] theorem State.withProg_config : (s.withProg prog).config = s.config := rfl
@[simp] theorem State.readReg_withProg (r : RegIdx) : (s.withProg prog).readReg r = s.readReg r := rfl
@[simp] theorem State.operandValue_withProg (o : Operand) :
    (s.withProg prog).operandValue o = s.operandValue o := by
  cases o <;> rfl

theorem State.agreesButProg_withProg : s.agreesButProg (s.withProg prog) := rfl

theorem State.beginRun_eq_withProg (cfg : Config) (prog' : List ProgItem) :
    State.beginRun cfg prog = (State.beginRun cfg prog').withProg prog := rfl

end

section
variable {s : State} {prog : List ProgItem} (hitem : prog[s.pc]? = s.prog[s.pc]?)
include hitem

/-- Taking a fault reads the sequence only for the text at the pc (10_state.md R18). -/
theorem State.raise_withProg (k : FaultKind) : (s.withProg prog).raise k = (s.raise k).withProg prog := by
  simp [State.raise, State.withProg, State.textAtPc, hitem]

/-- An execution reads the sequence nowhere but in the text of a fault of `div`. -/
theorem exec_withProg {i : Instr} {t : State} (h : exec i s = .next t) :
    exec i (s.withProg prog) = .next (t.withProg prog) := by
  rw [exec_by_opcode] at h ⊢
  cases hop : i.opcode <;> simp only [hop] at h ⊢
  case endOp | mov | add | sub | mul =>
    cases h
    rfl
  case div =>
    cases hf : divFault s.config.divOverflow (s.readReg i.dst) (s.operandValue i.operand) with
    | none =>
      rw [applyDiv_of_no_fault hf] at h
      cases h
      rw [applyDiv_of_no_fault (by simpa using hf), State.readReg_withProg, State.operandValue_withProg]
      rfl
    | some k =>
      rw [applyDiv_of_fault hf] at h
      cases h
      rw [applyDiv_of_fault (by simpa using hf), State.raise_withProg hitem]

/-- A step examines no element but the one at the pc. -/
theorem step_withProg {t : State} (h : step s = .next t) : step (s.withProg prog) = .next (t.withProg prog) := by
  obtain ⟨hrun, hfault, item, hat, ⟨k, hacc, rfl⟩ | ⟨i, hacc, hexec⟩⟩ := step_next_cases h
  · rw [step_of_rejected (s := s.withProg prog) hrun hfault (hitem.trans hat) hacc, State.raise_withProg hitem]
  · rw [step_of_accepted (s := s.withProg prog) hrun hfault (hitem.trans hat) hacc, exec_withProg hitem hexec]

/-- Where the other sequence lets a step be taken, so does this one: the replacement can be undone. -/
theorem step_of_step_withProg {u : State} (h : step (s.withProg prog) = .next u) :
    step s = .next (u.withProg s.prog) :=
  step_withProg (s := s.withProg prog) (prog := s.prog) hitem.symm h

end

/-! A run over a sequence that holds an `end`. -/

/-- The sequence begins with `before` and then `e`, and a Running engine has not passed `e`. -/
structure NotPast (cfg : Config) (before : List ProgItem) (e : ProgItem) (s : State) : Prop where
  config_eq : s.config = cfg
  begins : before ++ [e] <+: s.prog
  pc_le : s.isRunning = true → s.pc ≤ before.length

section
variable {cfg : Config} {before : List ProgItem} {e : ProgItem}

/-- Up to `e` inclusive, the elements are those of any sequence with the same beginning. -/
theorem getElem?_eq_of_prefix {prog : List ProgItem} (h : before ++ [e] <+: prog) {k : Nat}
    (hk : k ≤ before.length) : prog[k]? = (before ++ [e])[k]? := by
  obtain ⟨after, rfl⟩ := h
  exact List.getElem?_append_left (by simp; omega)

theorem notPast_beginRun {prog : List ProgItem} (h : before ++ [e] <+: prog) :
    NotPast cfg before e (State.beginRun cfg prog) :=
  ⟨rfl, h, fun _ => Nat.zero_le _⟩

/-- What a Running engine finds at its pc is the same in every sequence with that beginning. -/
theorem NotPast.getElem?_pc_eq {s : State} (hs : NotPast cfg before e s) (hrun : s.isRunning = true)
    {prog : List ProgItem} (h : before ++ [e] <+: prog) : prog[s.pc]? = s.prog[s.pc]? := by
  have hle := hs.pc_le hrun
  rw [getElem?_eq_of_prefix h hle, getElem?_eq_of_prefix hs.begins hle]

/-- The engine that reaches an `end` halts there, so no step takes a Running engine past it (43_end.md R91). -/
theorem NotPast.step_next (he : accept cfg e = .ok .endE) {s t : State} (hs : NotPast cfg before e s)
    (h : step s = .next t) : NotPast cfg before e t := by
  obtain ⟨hprog, hconfig⟩ := step_keeps_run h
  refine ⟨hconfig.trans hs.config_eq, hprog ▸ hs.begins, fun hrunning => ?_⟩
  have hle : s.pc ≤ before.length := hs.pc_le (isRunning_of_step_next h)
  have hne : s.pc ≠ before.length := by
    intro hpc
    have hat : s.prog[s.pc]? = some e := by
      rw [getElem?_eq_of_prefix hs.begins hle, hpc, List.getElem?_concat_length]
    have hhalted := (step_clears_isRunning_iff h).2 ⟨e, hat, hs.config_eq ▸ he⟩
    simp [hhalted] at hrunning
  have := pc_le_of_step_next h
  omega

/-- Whatever follows `e`, a run from a state not past it goes alike: each step finds the same element at the pc, and
where one engine stands still so does the other. -/
theorem runFor_withProg (he : accept cfg e = .ok .endE) {prog : List ProgItem} (hprog : before ++ [e] <+: prog)
    (n : Nat) {s : State} (hs : NotPast cfg before e s) :
    State.runFor n (s.withProg prog) = (State.runFor n s).withProg prog := by
  induction n generalizing s with
  | zero => rfl
  | succ n ih =>
    by_cases hstep : ∃ t, step s = .next t
    · obtain ⟨t, ht⟩ := hstep
      have hitem := hs.getElem?_pc_eq (isRunning_of_step_next ht) hprog
      simp only [State.runFor, ht, step_withProg hitem ht]
      exact ih (hs.step_next he ht)
    · have hstill (u : State) : step (s.withProg prog) ≠ .next u := fun hu =>
        have hrun : s.isRunning = true := by simpa using isRunning_of_step_next hu
        hstep ⟨_, step_of_step_withProg (hs.getElem?_pc_eq hrun hprog) hu⟩
      rw [runFor_of_no_step hstill, runFor_of_no_step (not_exists.1 hstep)]

end

end Sys2Proof.Machine

namespace Sys2Proof.Proofs
open Sys2Proof.Machine

/-- Settles O20. -/
theorem endHaltsAndIsCounted : Obligations.EndHaltsAndIsCounted :=
  completes_endE

/-- Settles O39: the second run is the first one over another sequence, of which only the part up to the `end` is
read. -/
theorem elementsAfterEndAreNeverExamined : Obligations.ElementsAfterEndAreNeverExamined := by
  refine ⟨fun s hhalted => ?halted, fun cfg before after₁ after₂ e n he => ?runs⟩
  case halted =>
    have hstill := step_ne_next_of_halted hhalted
    exact ⟨hstill, traceOut_of_halted hhalted, runFor_of_no_step hstill⟩
  case runs =>
    have hprefix (after : List ProgItem) : before ++ [e] <+: before ++ e :: after :=
      ⟨after, by simp⟩
    rw [State.beginRun_eq_withProg (before ++ e :: after₂) cfg (before ++ e :: after₁),
      runFor_withProg he (hprefix after₂) n (notPast_beginRun (hprefix after₁))]
    exact State.agreesButProg_withProg _ _

end Sys2Proof.Proofs
end

section
/-!
PROOFS. The decoder against the encoder (30_encoding.md R52 to R54): the operand the decoder gives back, the words it
accepts, and the instructions that share a word.
-/
namespace Sys2Proof

/-- The operand that the decoder prefers among those that share the operand's fields (DESIGN CHOICE, log 5): no operand
for source 0, and the sign extension of an immediate's low 16 bits. -/
def Operand.preferred : Operand → Operand
  | .none => .none
  | .reg s => if s = 0 then .none else .reg s
  | .imm v => .imm ((v.extractLsb' 0 16).signExtend 32)

@[simp] theorem Operand.preferred_none : Operand.none.preferred = .none := rfl

@[simp] theorem Operand.preferred_reg_zero : (Operand.reg 0).preferred = .none := rfl

theorem Operand.preferred_reg {s : RegIdx} (h : s ≠ 0) : (Operand.reg s).preferred = .reg s := if_neg h

@[simp] theorem Operand.preferred_imm (v : Word) :
    (Operand.imm v).preferred = .imm ((v.extractLsb' 0 16).signExtend 32) := rfl

/-- Form `N` fills the source field with 0, as form `R` with source 0 does (30_encoding.md R52). -/
theorem encodeFields_none_eq_reg_zero (op : Opcode) (d : RegIdx) :
    encodeFields op d .none = encodeFields op d (.reg 0) := by
  cases op <;> rfl

/-- Form `I` reads no more of the immediate than its low 16 bits (30_encoding.md R45). -/
theorem encodeFields_imm_congr (op : Opcode) (d : RegIdx) {v w : Word}
    (h : v.extractLsb' 0 16 = w.extractLsb' 0 16) : encodeFields op d (.imm v) = encodeFields op d (.imm w) := by
  cases op <;> simp only [encodeFields, h]

theorem extract_low_signExtend (v : BitVec 16) : (v.signExtend 32).extractLsb' 0 16 = v := by
  rw [eq_iff_toNat, extract_toNat, pow_zero, Nat.div_one, signExtend_low]

/-- The preferred operand has the word of the operand it stands for. -/
theorem encodeFields_preferred (op : Opcode) (d : RegIdx) (o : Operand) :
    encodeFields op d o.preferred = encodeFields op d o := by
  cases o with
  | none => rfl
  | reg s =>
    by_cases hs : s = 0
    · rw [hs, Operand.preferred_reg_zero, encodeFields_none_eq_reg_zero]
    · rw [Operand.preferred_reg hs]
  | imm v => exact encodeFields_imm_congr op d (extract_low_signExtend _)

/-- An operand is word-faithful exactly when it is the preferred one. -/
theorem Operand.wordFaithful_iff (o : Operand) : o.wordFaithful = true ↔ o.preferred = o := by
  cases o with
  | none => simp [wordFaithful, preferred]
  | reg s => by_cases hs : s = 0 <;> simp [wordFaithful, preferred, hs]
  | imm v => simp [wordFaithful, preferred, immFaithful]

theorem Operand.wordFaithful_preferred (o : Operand) : o.preferred.wordFaithful = true := by
  rw [Operand.wordFaithful_iff]
  cases o with
  | none => rfl
  | reg s =>
    by_cases hs : s = 0
    · rw [hs]
      rfl
    · simp only [preferred_reg hs]
  | imm v => simp only [preferred_imm, extract_low_signExtend]

/-- The word of an instruction given by its fields; `end` has no other field. -/
theorem encode_ofFields (op : Opcode) (d : RegIdx) (o : Operand) :
    encode (Instr.ofFields op d o) = encodeFields op d o := by
  cases op <;> cases o <;> rfl

/-- What the decoder makes of an encoded instruction: the same fields, with the preferred operand. -/
theorem decode_encodeFields (op : Opcode) (d : RegIdx) (o : Operand) :
    decode (encodeFields op d o) = .ok (Instr.ofFields op d o.preferred) := by
  by_cases h : op = .endOp
  · rw [h, encodeFields_endOp]
    exact decode_zero_opcode rfl
  have hreg (s : RegIdx) :
      decode (encodeFields op d (.reg s)) = .ok (Instr.ofFields op d (Operand.reg s).preferred) := by
    rw [decode_eq h (encodeFields_opcode_field op d _), encodeFields_reg_mode_bit h, encodeFields_reg_reserved_bits h,
      encodeFields_reg_src_field h, encodeFields_dst_field h]
    by_cases hs : s = 0
    · rw [hs]
      rfl
    · rw [if_neg hs, Operand.preferred_reg hs]
      rfl
  cases o with
  | none => rw [encodeFields_none_eq_reg_zero]; exact hreg 0
  | reg s => exact hreg s
  | imm v =>
    rw [decode_eq h (encodeFields_opcode_field op d _), encodeFields_imm_mode_bit h, encodeFields_imm_reserved_bits h,
      encodeFields_imm_imm_field h, encodeFields_dst_field h]
    rfl

theorem decode_encode (i : Instr) : decode (encode i) = .ok (Instr.ofFields i.opcode i.dst i.operand.preferred) :=
  decode_encodeFields _ _ _

/-- The preferred instruction keeps every field but the operand, of which `end` has none. -/
theorem fields_ofFields_preferred (i : Instr) :
    (Instr.ofFields i.opcode i.dst i.operand.preferred).opcode = i.opcode ∧
      (Instr.ofFields i.opcode i.dst i.operand.preferred).dst = i.dst ∧
      (Instr.ofFields i.opcode i.dst i.operand.preferred).operand = i.operand.preferred := by
  refine ⟨Instr.opcode_ofFields _ _ _, ?_⟩
  by_cases h : i.opcode = .endOp
  · rw [Instr.opcode_eq_endOp.1 h]
    exact ⟨rfl, rfl⟩
  · exact ⟨Instr.dst_ofFields h _ _, Instr.operand_ofFields h _ _⟩

/-- The immediates that 16 bits hold as signed numbers. -/
theorem immFaithful_iff (v : Word) : immFaithful v = true ↔ -32768 ≤ v.toInt ∧ v.toInt ≤ 32767 := by
  have hext : ((v.extractLsb' 0 16).signExtend 32).toInt = ((v.toNat % 65536 : Nat) : Int).bmod 65536 := by
    rw [BitVec.toInt_signExtend_of_le (by decide), BitVec.toInt_eq_toNat_bmod, extract_toNat, pow_zero, Nat.div_one]
    rfl
  have hv : v.toInt = (v.toNat : Int).bmod 4294967296 := BitVec.toInt_eq_toNat_bmod v
  have hlt : v.toNat < 4294967296 := v.isLt
  rw [immFaithful, decide_eq_true_iff, ← BitVec.toInt_inj, hext, hv]
  simp only [Int.bmod]
  omega

/-! ## Words the encoder produces -/

section
variable {w : Word} {op : Opcode} (h : op ≠ .endOp) (hop : w.extractLsb' 28 4 = op.bits)
include h hop

/-- A word without mode bit and without reserved bits is form `R` of its own fields. -/
theorem encodeFields_reg_of_fields (hmode : w.getLsbD 24 = false) (hlow : w.extractLsb' 0 21 = 0) :
    encodeFields op (w.extractLsb' 25 3) (.reg (w.extractLsb' 21 3)) = w := by
  rw [bit_false_iff] at hmode
  rw [low_bits_eq_zero_iff] at hlow
  rw [eq_iff_toNat, encodeFields_reg_toNat h, ← hop]
  simp only [extract_toNat]
  omega

/-- A word with the mode bit and without reserved bits is form `I` of its own fields. -/
theorem encodeFields_imm_of_fields (hmode : w.getLsbD 24 = true) (hlow : w.extractLsb' 0 8 = 0) {v : Word}
    (hv : v.extractLsb' 0 16 = w.extractLsb' 8 16) : encodeFields op (w.extractLsb' 25 3) (.imm v) = w := by
  rw [bit_iff] at hmode
  rw [low_bits_eq_zero_iff] at hlow
  rw [eq_iff_toNat, extract_toNat, extract_toNat, pow_zero, Nat.div_one] at hv
  rw [eq_iff_toNat, encodeFields_imm_toNat h, hv, ← hop]
  simp only [extract_toNat]
  omega

end

/-- The word has the fields of some row of the opcode map: it is 0, or it has an operation's opcode and the reserved
bits of the form its mode bit names are 0 (30_encoding.md R47, R53). -/
def HasFormFields (w : Word) : Prop :=
  w = 0 ∨ ∃ op : Opcode, op ≠ .endOp ∧ w.extractLsb' 28 4 = op.bits ∧
    (w.getLsbD 24 = false ∧ w.extractLsb' 0 21 = 0 ∨ w.getLsbD 24 = true ∧ w.extractLsb' 0 8 = 0)

/-- The decoder accepts a word with the fields of a row, and gives an instruction that encodes to it. -/
theorem decode_of_hasFormFields {w : Word} (h : HasFormFields w) : ∃ i, decode w = .ok i ∧ encode i = w := by
  rcases h with rfl | ⟨op, hne, hop, ⟨hmode, hlow⟩ | ⟨hmode, hlow⟩⟩
  · exact ⟨.endE, decode_zero_opcode rfl, rfl⟩
  · have hw := encodeFields_reg_of_fields hne hop hmode hlow
    refine ⟨_, hw ▸ decode_encodeFields op _ _, ?_⟩
    rw [encode_ofFields, encodeFields_preferred, hw]
  · have hw := encodeFields_imm_of_fields hne hop hmode hlow (extract_low_signExtend _)
    refine ⟨_, hw ▸ decode_encodeFields op _ _, ?_⟩
    rw [encode_ofFields, encodeFields_preferred, hw]

/-- Every other word is refused. -/
theorem hasFormFields_of_decode {w : Word} {i : Instr} (h : decode w = .ok i) : HasFormFields w := by
  cases hop : Opcode.ofBits (w.extractLsb' 28 4) with
  | none => simp [decode_unassigned hop] at h
  | some op =>
    have hbits := (Opcode.bits_of_ofBits hop).symm
    by_cases hne : op = .endOp
    · rw [decode_zero_opcode (by rw [hbits, hne]; rfl)] at h
      split at h
      case isTrue hw => exact .inl hw
      case isFalse => cases h
    · rw [decode_eq hne hbits] at h
      refine .inr ⟨op, hne, hbits, ?_⟩
      split at h
      case isTrue hmode =>
        split at h
        case isTrue hlow => exact .inr ⟨hmode, hlow⟩
        case isFalse => cases h
      case isFalse hmode =>
        split at h
        case isTrue hlow => exact .inl ⟨Bool.eq_false_of_not_eq_true hmode, hlow⟩
        case isFalse => cases h

theorem encode_of_decode {w : Word} {i : Instr} (h : decode w = .ok i) : encode i = w := by
  obtain ⟨j, hj, hw⟩ := decode_of_hasFormFields (hasFormFields_of_decode h)
  cases h.symm.trans hj
  exact hw

theorem decode_isOk_iff_encode {w : Word} : (∃ i, decode w = .ok i) ↔ ∃ i, encode i = w :=
  ⟨fun ⟨i, h⟩ => ⟨i, encode_of_decode h⟩, fun ⟨i, h⟩ => ⟨_, h ▸ decode_encode i⟩⟩

/-! ## Rows of the opcode map -/

/-- A word as its fields by form `R`: opcode, destination, mode, source, and 21 bits. -/
theorem eq_append_of_form_reg (w : Word) :
    w = w.extractLsb' 28 4 ++ w.extractLsb' 25 3 ++ w.extractLsb' 24 1 ++ w.extractLsb' 21 3 ++
      w.extractLsb' 0 21 := by
  rw [eq_iff_toNat]
  simp only [append_toNat, extract_toNat]
  omega

/-- A word as its fields by form `I`: opcode, destination, mode, immediate, and 8 bits. -/
theorem eq_append_of_form_imm (w : Word) :
    w = w.extractLsb' 28 4 ++ w.extractLsb' 25 3 ++ w.extractLsb' 24 1 ++ w.extractLsb' 8 16 ++
      w.extractLsb' 0 8 := by
  rw [eq_iff_toNat]
  simp only [append_toNat, extract_toNat]
  omega

/-- Two concatenations at the same place are equal exactly when their parts are. -/
theorem append_eq_append_iff {m n : Nat} {a c : BitVec m} {b d : BitVec n} :
    a ++ b = c ++ d ↔ a = c ∧ b = d := by
  refine ⟨fun h => ?_, fun ⟨hac, hbd⟩ => hac ▸ hbd ▸ rfl⟩
  have hb := b.isLt
  have hd := d.isLt
  rw [eq_iff_toNat, append_toNat, append_toNat] at h
  rw [eq_iff_toNat, eq_iff_toNat]
  have hlow : b.toNat = d.toNat := by
    have := congrArg (· % 2 ^ n) h
    simpa [Nat.add_mod, Nat.mod_eq_of_lt hb, Nat.mod_eq_of_lt hd] using this
  refine ⟨?_, hlow⟩
  rw [hlow] at h
  exact Nat.eq_of_mul_eq_mul_right (by positivity) (Nat.add_right_cancel h)

/-- The mode bit is the one-bit field at its place (30_encoding.md R44). -/
theorem mode_field_zero_iff (w : Word) : w.extractLsb' 24 1 = 0#1 ↔ w.getLsbD 24 = false := by
  rw [bit_false_iff, eq_iff_toNat, extract_toNat]
  rfl

theorem mode_field_one_iff (w : Word) : w.extractLsb' 24 1 = 1#1 ↔ w.getLsbD 24 = true := by
  rw [bit_iff, eq_iff_toNat, extract_toNat]
  rfl

/-- A mask that covers opcode, mode and the low bits of a word, compared with a pattern that has 0 in the low bits. -/
theorem and_form_mask_eq_iff {k l : Nat} (a b : BitVec 4) (d : BitVec 3) (m c : BitVec 1) (f : BitVec k)
    (r : BitVec l) :
    (a ++ d ++ m ++ f ++ r) &&& (BitVec.allOnes 4 ++ 0#3 ++ BitVec.allOnes 1 ++ 0#k ++ BitVec.allOnes l) =
      b ++ 0#3 ++ c ++ 0#k ++ 0#l ↔ a = b ∧ m = c ∧ r = 0 := by
  simp only [BitVec.and_append, BitVec.and_allOnes, BitVec.and_zero, append_eq_append_iff, and_true]
  exact and_assoc

/-- The row of form `R` (30_encoding.md section 4): its mask covers the opcode, the mode and the low 21 bits. -/
theorem row_reg_iff (w : Word) (b : BitVec 4) :
    w &&& 0xF11FFFFF#32 = b ++ 0x0000000#28 ↔
      w.extractLsb' 28 4 = b ∧ w.getLsbD 24 = false ∧ w.extractLsb' 0 21 = 0 := by
  have hpattern : b ++ 0x0000000#28 = b ++ 0#3 ++ 0#1 ++ 0#3 ++ 0#21 := by revert b; decide
  have hrow := and_form_mask_eq_iff (w.extractLsb' 28 4) b (w.extractLsb' 25 3) (w.extractLsb' 24 1) 0#1
    (w.extractLsb' 21 3) (w.extractLsb' 0 21)
  rwa [← eq_append_of_form_reg w, ← hpattern, mode_field_zero_iff] at hrow

/-- The row of form `I`: its mask covers the opcode, the mode and the low 8 bits. -/
theorem row_imm_iff (w : Word) (b : BitVec 4) :
    w &&& 0xF10000FF#32 = b ++ 0x1000000#28 ↔
      w.extractLsb' 28 4 = b ∧ w.getLsbD 24 = true ∧ w.extractLsb' 0 8 = 0 := by
  have hpattern : b ++ 0x1000000#28 = b ++ 0#3 ++ 1#1 ++ 0#16 ++ 0#8 := by revert b; decide
  have hrow := and_form_mask_eq_iff (w.extractLsb' 28 4) b (w.extractLsb' 25 3) (w.extractLsb' 24 1) 1#1
    (w.extractLsb' 8 16) (w.extractLsb' 0 8)
  rwa [← eq_append_of_form_imm w, ← hpattern, mode_field_one_iff] at hrow

/-- The row of form `N` is a part of the row of form `R`: its mask covers the source field besides. -/
theorem row_reg_of_row_none {w : Word} {b : BitVec 4} (h : w &&& 0xF1FFFFFF#32 = b ++ 0x0000000#28) :
    w &&& 0xF11FFFFF#32 = b ++ 0x0000000#28 := by
  have hpattern : (b ++ 0x0000000#28) &&& 0xF11FFFFF#32 = b ++ 0x0000000#28 := by clear h; revert b; decide
  calc w &&& 0xF11FFFFF#32
      = w &&& (0xF1FFFFFF#32 &&& 0xF11FFFFF#32) := by rfl
    _ = b ++ 0x0000000#28 := by rw [← BitVec.and_assoc, h, hpattern]

/-- The three rows of an operation, of which the one of form `N` adds no word. -/
theorem operationRows_any_iff (m : String) (w : Word) (b : BitVec 4) :
    (operationRows m b).any (fun r => decide (w &&& r.mask = r.pattern)) = true ↔
      w.extractLsb' 28 4 = b ∧
        (w.getLsbD 24 = false ∧ w.extractLsb' 0 21 = 0 ∨ w.getLsbD 24 = true ∧ w.extractLsb' 0 8 = 0) := by
  simp only [operationRows, List.any_cons, List.any_nil, Bool.or_false, Bool.or_eq_true, decide_eq_true_iff]
  rw [or_iff_right_of_imp fun h => .inl (row_reg_of_row_none h), row_reg_iff, row_imm_iff, ← and_or_left]

/-- The operations other than `end` (00_scope.md R9). -/
theorem Opcode.exists_operation_iff (P : Opcode → Prop) :
    (∃ op, op ≠ .endOp ∧ P op) ↔ P .mov ∨ P .add ∨ P .sub ∨ P .mul ∨ P .div := by
  constructor
  · rintro ⟨op, hne, h⟩
    cases op <;> simp_all
  · rintro (h | h | h | h | h)
    all_goals exact ⟨_, by decide, h⟩

/-- The rows are `end`'s and those of the five operations, each under its opcode value. -/
theorem matchesRow_iff (w : Word) : matchesRow w = true ↔ HasFormFields w := by
  have hend : w &&& 0xFFFFFFFF#32 = 0x00000000#32 ↔ w = 0 := by
    rw [show 0xFFFFFFFF#32 = BitVec.allOnes 32 by decide, BitVec.and_allOnes]
    rfl
  simp only [matchesRow, opcodeRows, List.any_cons, List.any_append, Bool.or_eq_true, operationRows_any_iff,
    decide_eq_true_iff, hend, HasFormFields, Opcode.exists_operation_iff, Opcode.bits, or_assoc]

/-! ## The preimage of a word -/

/-- The set of 30_encoding.md R54 for a word with an operation's opcode: the fields that the form reads are the
word's, the reserved bits are 0, and the operand is of a kind the mode bit allows. -/
theorem encodeFields_eq_iff {op : Opcode} (h : op ≠ .endOp) (d : RegIdx) (o : Operand) (w : Word) :
    encodeFields op d o = w ↔ op.bits = w.extractLsb' 28 4 ∧ d = w.extractLsb' 25 3 ∧
      match o with
      | .none => w.getLsbD 24 = false ∧ w.extractLsb' 0 24 = 0
      | .reg s => w.getLsbD 24 = false ∧ w.extractLsb' 0 21 = 0 ∧ s = w.extractLsb' 21 3
      | .imm v => w.getLsbD 24 = true ∧ w.extractLsb' 0 8 = 0 ∧ v.extractLsb' 0 16 = w.extractLsb' 8 16 := by
  constructor
  · rintro rfl
    refine ⟨(encodeFields_opcode_field op d o).symm, (encodeFields_dst_field h d o).symm, ?_⟩
    cases o with
    | none =>
      have hlow := encodeFields_none_low_bits h d
      rw [low_bits_eq_zero_iff] at hlow
      refine ⟨?_, ?_⟩
      · rw [bit_false_iff]; omega
      · rw [low_bits_eq_zero_iff]; omega
    | reg s =>
      exact ⟨encodeFields_reg_mode_bit h d s, encodeFields_reg_reserved_bits h d s,
        (encodeFields_reg_src_field h d s).symm⟩
    | imm v =>
      exact ⟨encodeFields_imm_mode_bit h d v, encodeFields_imm_reserved_bits h d v,
        (encodeFields_imm_imm_field h d v).symm⟩
  · rintro ⟨hop, rfl, hoperand⟩
    cases o with
    | none =>
      obtain ⟨hmode, hlow⟩ := hoperand
      rw [low_bits_eq_zero_iff] at hlow
      have hsrc : w.extractLsb' 21 3 = 0 := by
        rw [eq_iff_toNat, extract_toNat]
        change _ = 0
        omega
      have hreserved : w.extractLsb' 0 21 = 0 := by rw [low_bits_eq_zero_iff]; omega
      rw [encodeFields_none_eq_reg_zero, ← hsrc]
      exact encodeFields_reg_of_fields h hop.symm hmode hreserved
    | reg s =>
      obtain ⟨hmode, hlow, rfl⟩ := hoperand
      exact encodeFields_reg_of_fields h hop.symm hmode hlow
    | imm v =>
      obtain ⟨hmode, hlow, hv⟩ := hoperand
      exact encodeFields_imm_of_fields h hop.symm hmode hlow hv

/-- Outside `end` no opcode value is 0 (30_encoding.md R42). -/
theorem Opcode.bits_ne_zero {op : Opcode} (h : op ≠ .endOp) : op.bits ≠ 0 :=
  fun hzero => h (Opcode.bits_injective hzero)

/-- The function's case split, for a word whose opcode field is 0. -/
theorem inverseHas_of_opcode_zero {w : Word} (hw : w.extractLsb' 28 4 = 0) (i : Instr) :
    inverseHas w i = true ↔ w = 0 ∧ i = .endE := by
  rw [inverseHas, if_pos hw, decide_eq_true_iff]

/-- The function's case split elsewhere: the mode bit and the operand's kind decide which fields are compared. -/
theorem inverseHas_of_opcode_ne_zero {w : Word} (hw : w.extractLsb' 28 4 ≠ 0) (i : Instr) :
    inverseHas w i = true ↔ i.opcode ≠ .endOp ∧ encodeFields i.opcode i.dst i.operand = w := by
  rw [inverseHas, if_neg hw, Bool.and_eq_true, decide_eq_true_iff, and_assoc]
  refine and_congr_right fun hop => ?_
  rw [encodeFields_eq_iff hop, and_assoc]
  refine and_congr_right fun _ => and_congr_right fun _ => ?_
  cases i.operand <;> cases w.getLsbD 24 <;> simp

theorem encode_opcode_field (i : Instr) : (encode i).extractLsb' 28 4 = i.opcode.bits :=
  encodeFields_opcode_field _ _ _

theorem inverseHas_iff (w : Word) (i : Instr) : inverseHas w i = true ↔ encode i = w := by
  by_cases hw : w.extractLsb' 28 4 = 0
  · rw [inverseHas_of_opcode_zero hw]
    constructor
    · rintro ⟨rfl, rfl⟩
      rfl
    · rintro rfl
      have hend : i.opcode = .endOp := by
        by_contra hop
        exact Opcode.bits_ne_zero hop (encode_opcode_field i ▸ hw)
      rw [Instr.opcode_eq_endOp.1 hend]
      exact ⟨rfl, rfl⟩
  · rw [inverseHas_of_opcode_ne_zero hw]
    refine ⟨And.right, fun h => ⟨fun hend => hw ?_, h⟩⟩
    rw [← h, encode_opcode_field, hend]
    rfl

/-! ## Instructions with one word -/

theorem Operand.preferred_reg_eq_none_iff (s : RegIdx) : (Operand.reg s).preferred = .none ↔ s = 0 := by
  refine ⟨fun h => ?_, fun hs => hs ▸ preferred_reg_zero⟩
  by_contra hs
  rw [preferred_reg hs] at h
  cases h

theorem Operand.preferred_reg_ne_imm (s : RegIdx) (v : Word) : (Operand.reg s).preferred ≠ .imm v := by
  change (if s = 0 then Operand.none else .reg s) ≠ .imm v
  split <;> simp

theorem Operand.preferred_reg_inj (s r : RegIdx) : (Operand.reg s).preferred = (Operand.reg r).preferred ↔ s = r := by
  by_cases hr : r = 0
  · rw [hr, preferred_reg_zero, preferred_reg_eq_none_iff]
  · by_cases hs : s = 0
    · rw [hs, preferred_reg_zero, eq_comm, preferred_reg_eq_none_iff, eq_comm]
    · rw [preferred_reg hr, preferred_reg hs, reg.injEq]

theorem Operand.preferred_imm_inj (v w : Word) :
    (Operand.imm v).preferred = (Operand.imm w).preferred ↔ v.extractLsb' 0 16 = w.extractLsb' 0 16 := by
  rw [preferred_imm, preferred_imm, imm.injEq]
  refine ⟨fun h => ?_, congrArg _⟩
  have := congrArg (BitVec.extractLsb' 0 16) h
  rwa [extract_low_signExtend, extract_low_signExtend] at this

/-- Two operands are preferred alike exactly in the cases of 30_encoding.md R52. -/
theorem Operand.preferred_eq_iff (o p : Operand) :
    o.preferred = p.preferred ↔ o = p ∨ (o = .none ∧ p = .reg 0) ∨ (o = .reg 0 ∧ p = .none) ∨
      ∃ v w : Word, o = .imm v ∧ p = .imm w ∧ v.extractLsb' 0 16 = w.extractLsb' 0 16 := by
  cases o with
  | none =>
    cases p with
    | none => simp
    | reg s => rw [eq_comm]; simpa using preferred_reg_eq_none_iff s
    | imm w => simp
  | reg s =>
    cases p with
    | none => simpa using preferred_reg_eq_none_iff s
    | reg r => simpa using preferred_reg_inj s r
    | imm w => simpa using preferred_reg_ne_imm s _
  | imm v =>
    cases p with
    | none => simp
    | reg s => simpa using (preferred_reg_ne_imm s _).symm
    | imm w =>
      rw [preferred_imm_inj]
      refine ⟨fun h => .inr (.inr (.inr ⟨v, w, rfl, rfl, h⟩)), ?_⟩
      rintro (h | ⟨h, -⟩ | ⟨h, -⟩ | ⟨v', w', hv, hw, h⟩)
      case inr.inr.inr => rwa [imm.inj hv, imm.inj hw]
      case inl => rw [imm.inj h]
      all_goals cases h

/-- Two instructions share a word exactly when the decoder prefers the same instruction for both. -/
theorem encode_eq_encode_iff (i j : Instr) :
    encode i = encode j ↔ i.opcode = j.opcode ∧ i.dst = j.dst ∧ i.operand.preferred = j.operand.preferred := by
  constructor
  · intro h
    have hdec := (decode_encode i).symm.trans (h ▸ decode_encode j)
    have hi := fields_ofFields_preferred i
    rw [Except.ok.inj hdec] at hi
    obtain ⟨hop, hdst, hoperand⟩ := fields_ofFields_preferred j
    exact ⟨hi.1.symm.trans hop, hi.2.1.symm.trans hdst, hi.2.2.symm.trans hoperand⟩
  · rintro ⟨hop, hdst, hoperand⟩
    rw [encode, ← encodeFields_preferred, hop, hdst, hoperand, encodeFields_preferred, encode]

end Sys2Proof

namespace Sys2Proof.Machine

/-! ## The display form -/

theorem toList_binaryDisplay (w : Word) :
    (binaryDisplay w).toList = (List.range 32).map fun k => if w.getMsbD k then '1' else '0' := by
  rw [binaryDisplay, String.toList_ofList]

theorem length_binaryDisplay (w : Word) : (binaryDisplay w).toList.length = 32 := by
  rw [toList_binaryDisplay, List.length_map, List.length_range]

/-- Character k is bit 31 - k (30_encoding.md R51). -/
theorem getElem?_binaryDisplay (w : Word) {k : Nat} (h : k < 32) :
    (binaryDisplay w).toList[k]? = some (if w.getLsbD (31 - k) then '1' else '0') := by
  rw [toList_binaryDisplay, List.getElem?_map, List.getElem?_range h, Option.map_some, BitVec.getMsbD_eq_getLsbD,
    decide_eq_true h, Bool.true_and]

/-- The first n characters are the numeral of the word's n high bits. -/
theorem ofDigitChars_high_bits (w : Word) (n : Nat) (h : n ≤ 32) :
    Nat.ofDigitChars 2 ((List.range n).map fun k => if w.getMsbD k then '1' else '0') 0 =
      w.toNat / 2 ^ (32 - n) := by
  induction n with
  | zero => exact (Nat.div_eq_of_lt w.isLt).symm
  | succ n ih =>
    have hdigit : ((if w.getMsbD n then '1' else '0').toNat - '0'.toNat) = w.toNat / 2 ^ (31 - n) % 2 := by
      rw [BitVec.getMsbD_eq_getLsbD, decide_eq_true (show n < 32 by omega), Bool.true_and]
      cases hbit : w.getLsbD (32 - 1 - n) with
      | true => exact ((bit_iff w _).1 hbit).symm
      | false => exact ((bit_false_iff w _).1 hbit).symm
    have hdiv : w.toNat / 2 ^ (32 - n) = w.toNat / 2 ^ (31 - n) / 2 := by
      rw [Nat.div_div_eq_div_mul, ← pow_succ]
      congr 2
      omega
    rw [List.range_succ, List.map_append, Nat.ofDigitChars_append, ih (by omega), List.map_singleton,
      Nat.ofDigitChars_cons, Nat.ofDigitChars_nil, hdigit, hdiv, show 32 - (n + 1) = 31 - n by omega]
    exact Nat.div_add_mod _ _

theorem ofDigitChars_binaryDisplay (w : Word) : Nat.ofDigitChars 2 (binaryDisplay w).toList 0 = w.toNat := by
  rw [toList_binaryDisplay, ofDigitChars_high_bits w 32 le_rfl, Nat.sub_self, pow_zero, Nat.div_one]

theorem binaryDisplay_injective : Function.Injective binaryDisplay := fun v w h => by
  rw [eq_iff_toNat, ← ofDigitChars_binaryDisplay v, h, ofDigitChars_binaryDisplay]

end Sys2Proof.Machine

namespace Sys2Proof.Proofs
open Sys2Proof.Machine

/-- Settles O1: sixteen words of concrete bits, on each of which the decoder is evaluated. -/
theorem listedWordsDecodeToTheirInstructions : Obligations.ListedWordsDecodeToTheirInstructions := by
  unfold Obligations.ListedWordsDecodeToTheirInstructions
  decide

/-- Settles O4: the decoder prefers the same instruction for both, and its choice of operand is R52's case split. -/
theorem encodeCollisionsAreExactlyTheListedOnes : Obligations.EncodeCollisionsAreExactlyTheListedOnes := by
  intro i j
  rw [encode_eq_encode_iff, Operand.preferred_eq_iff]

/-- Settles O5: the decoder gives the preferred operand back, which is a faithful instruction's own. -/
theorem decodeInvertsEncodeOnFaithfulInstructions : Obligations.DecodeInvertsEncodeOnFaithfulInstructions := by
  refine ⟨fun i hi => ?faithful, immFaithful_iff, fun i => ?others⟩
  case faithful =>
    rw [decode_encode, (Operand.wordFaithful_iff _).1 hi, Instr.ofFields_self]
  case others =>
    obtain ⟨hop, hdst, hoperand⟩ := fields_ofFields_preferred i
    refine ⟨_, decode_encode i, ?_, ?_, hop, hdst⟩
    · rw [Instr.wordFaithful, hoperand, Operand.wordFaithful_preferred]
    · rw [encode_ofFields, encodeFields_preferred, encode]

/-- Settles O6: the rows, the decoder and the encoder are each tied to the fields of the forms. -/
theorem decoderAcceptsExactlyTheEncodersWords : Obligations.DecoderAcceptsExactlyTheEncodersWords := by
  intro w
  have hdecoded : (∃ i, decode w = .ok i) ↔ matchesRow w = true := by
    rw [matchesRow_iff]
    refine ⟨fun ⟨i, hi⟩ => hasFormFields_of_decode hi, fun hw => ?_⟩
    obtain ⟨i, hi, -⟩ := decode_of_hasFormFields hw
    exact ⟨i, hi⟩
  exact ⟨hdecoded, decode_isOk_iff_encode.symm.trans hdecoded, fun i => encode_of_decode⟩

/-- Settles O7. -/
theorem inverseIsTheExactPreimage : Obligations.InverseIsTheExactPreimage :=
  inverseHas_iff

/-- Settles O8: the numeral gives the word back, so the display form is injective. -/
theorem binaryDisplayIsTheBinaryNumeral : Obligations.BinaryDisplayIsTheBinaryNumeral := fun w =>
  ⟨length_binaryDisplay w, fun _ hk => getElem?_binaryDisplay w hk, ofDigitChars_binaryDisplay w,
    fun _ h => binaryDisplay_injective h⟩

end Sys2Proof.Proofs
end

section
/-!
PROOFS. The arithmetic of `add`, `sub` and `div` (41_mov_add_sub.md R73; 42_mul_div.md R81 to R84), the faults of
`div`, and two instructions with one word (30_encoding.md R52).
-/
namespace Sys2Proof.Machine

/-! ## Sums and differences -/

/-- Wrapping the signed sum is addition of words (41_mov_add_sub.md R73): the sign of the reading does not matter. -/
theorem addWrap_eq (a b : Word) : addWrap a b = a + b := by
  rw [addWrap, wrap32, s32, s32, BitVec.ofInt_add, BitVec.ofInt_toInt, BitVec.ofInt_toInt]

theorem subWrap_eq (a b : Word) : subWrap a b = a - b := by
  rw [subWrap, wrap32, s32, s32, Int.sub_eq_add_neg, BitVec.ofInt_add, BitVec.ofInt_neg, BitVec.ofInt_toInt,
    BitVec.ofInt_toInt, BitVec.sub_eq_add_neg]

/-- Wrapping an integer changes it by a multiple of 2^32 (00_scope.md section 6). -/
theorem dvd_toInt_wrap32_sub (z : Int) : (2 : Int) ^ 32 ∣ (wrap32 z).toInt - z := by
  rw [wrap32, BitVec.toInt_ofInt]
  exact Int.dvd_bmod_sub_self

/-- An integer that a word holds is not changed by wrapping. -/
theorem toInt_wrap32 {z : Int} (hlow : -2 ^ 31 ≤ z) (hhigh : z < 2 ^ 31) : (wrap32 z).toInt = z :=
  BitVec.toInt_ofInt_eq_self (by decide) hlow hhigh

/-! ## The truncating division -/

theorem trem_eq_tmod (a b : Int) : trem a b = Int.tmod a b := by
  rw [trem, tdiv, Int.tmod_def, Int.mul_comm]

/-- The truncating quotient and its remainder meet 42_mul_div.md R83, for every nonzero divisor. -/
theorem truncatingDivision_tdiv_trem (a : Int) {b : Int} (hb : b ≠ 0) :
    TruncatingDivision a b (tdiv a b) (trem a b) := by
  refine ⟨by rw [trem]; omega, ?magnitude, ?sign⟩
  case magnitude =>
    rw [trem_eq_tmod, Int.abs_eq_natAbs, Int.abs_eq_natAbs, Int.natAbs_tmod]
    exact_mod_cast Nat.mod_lt _ (Int.natAbs_pos.2 hb)
  case sign =>
    rw [trem_eq_tmod]
    rcases lt_trichotomy a 0 with ha | rfl | ha
    · have hneg : 0 ≤ -Int.tmod a b := by
        rw [← Int.neg_tmod]
        exact Int.tmod_nonneg b (by omega)
      omega
    · exact .inl (Int.zero_tmod b)
    · have hpos : 0 ≤ Int.tmod a b := Int.tmod_nonneg b ha.le
      omega

theorem toInt_ne_zero {v : Word} (h : v ≠ 0) : v.toInt ≠ 0 :=
  fun hzero => h (BitVec.toInt_inj.1 (hzero.trans BitVec.toInt_zero.symm))

/-- Of two words, only -2147483648 and -1 have the quotient 2147483648, which no word holds (42_mul_div.md R84). -/
theorem eq_of_tdiv_eq_two_pow {d v : Word} (h : tdiv d.toInt v.toInt = 2 ^ 31) :
    d = 0x80000000#32 ∧ v = 0xFFFFFFFF#32 := by
  have hv : v.toInt ≠ 0 := by
    intro hzero
    rw [hzero, tdiv, Int.tdiv_zero] at h
    omega
  obtain ⟨hdvd, hlt, -⟩ := truncatingDivision_tdiv_trem d.toInt hv
  obtain ⟨hlow, hhigh⟩ := abs_lt.1 hlt
  have hd : -2 ^ 31 ≤ d.toInt ∧ d.toInt < 2 ^ 31 := ⟨BitVec.le_toInt d, BitVec.toInt_lt⟩
  rw [h] at hdvd
  have hvalues : d.toInt = -2147483648 ∧ v.toInt = -1 := by
    rcases abs_cases v.toInt with ⟨habs, hsign⟩ | ⟨habs, hsign⟩ <;> rw [habs] at hlow hhigh <;> omega
  exact ⟨BitVec.toInt_inj.1 (hvalues.1.trans (by decide)), BitVec.toInt_inj.1 (hvalues.2.trans (by decide))⟩

/-- Outside that division a word holds the quotient. -/
theorem toInt_divQuotient {d v : Word} (h : ¬ (d = 0x80000000#32 ∧ v = 0xFFFFFFFF#32)) :
    (divQuotient d v).toInt = tdiv d.toInt v.toInt := by
  have hle : |tdiv d.toInt v.toInt| ≤ |d.toInt| := by
    rw [tdiv, Int.abs_eq_natAbs, Int.abs_eq_natAbs]
    exact_mod_cast Int.natAbs_tdiv_le_natAbs _ _
  have hbounds := abs_le.1 (hle.trans (abs_toInt_le d))
  exact toInt_wrap32 hbounds.1 (lt_of_le_of_ne hbounds.2 fun hq => h (eq_of_tdiv_eq_two_pow hq))

/-- A word holds the remainder of a division by a word. -/
theorem toInt_divRemainder (d : Word) {v : Word} (hv : v ≠ 0) :
    (divRemainder d v).toInt = trem d.toInt v.toInt := by
  obtain ⟨-, hlt, -⟩ := truncatingDivision_tdiv_trem d.toInt (toInt_ne_zero hv)
  obtain ⟨hlow, hhigh⟩ := abs_lt.1 (hlt.trans_le (abs_toInt_le v))
  exact toInt_wrap32 hlow.le hhigh

/-- The two results of `div` are quotient and remainder of the signed values (42_mul_div.md R83). -/
theorem truncatingDivision_div_results {d v : Word} (hv : v ≠ 0)
    (h : ¬ (d = 0x80000000#32 ∧ v = 0xFFFFFFFF#32)) :
    TruncatingDivision d.toInt v.toInt (divQuotient d v).toInt (divRemainder d v).toInt := by
  rw [toInt_divQuotient h, toInt_divRemainder d hv]
  exact truncatingDivision_tdiv_trem _ (toInt_ne_zero hv)

/-! ## The fault indication of `div` -/

theorem divFault_eq_none {p : DivOverflowPolicy} {d v : Word} (hv : v ≠ 0)
    (h : d = 0x80000000#32 → v = 0xFFFFFFFF#32 → p ≠ .fault) : divFault p d v = none := by
  rw [Option.eq_none_iff_forall_ne_some]
  intro k hk
  rcases divFault_eq_some.1 hk with ⟨-, hzero⟩ | ⟨-, hd, hv', hp⟩
  · exact hv hzero
  · exact h hd hv' hp

/-- Taking a fault records it and leaves everything else (60_exceptions.md R109). -/
theorem faultTaken_raise (s : State) (k : FaultKind) : FaultTaken s k (s.raise k) :=
  ⟨rfl, fun _ => rfl, rfl, rfl, rfl, rfl, rfl, rfl⟩

/-- `div` in every form, where the result handler indicates a fault (42_mul_div.md R81, R84). -/
theorem faultTaken_of_opcode_div {i : Instr} (h : i.opcode = .div) {s : State} {k : ArithFault}
    (hfault : divFault s.config.divOverflow (s.readReg i.dst) (s.operandValue i.operand) = some k) :
    ∃ t, exec i s = .next t ∧ FaultTaken s (.arithmeticError k) t :=
  ⟨_, by rw [exec_by_opcode, h]; exact applyDiv_of_fault hfault, faultTaken_raise s _⟩

/-- `div` by a zero operand value. -/
theorem faultTaken_of_zero_operand {i : Instr} (h : i.opcode = .div) {s : State}
    (hzero : s.operandValue i.operand = 0) :
    ∃ t, exec i s = .next t ∧ FaultTaken s (.arithmeticError .divideByZero) t :=
  faultTaken_of_opcode_div h (divFault_eq_some.2 (.inl ⟨rfl, hzero⟩))

section
variable {i : Instr} (h : i.opcode = .div) {s : State}
include h

/-- `div` completes with the truncating quotient and its remainder (42_mul_div.md R83). -/
theorem completes_of_opcode_div_in_range (hv : s.operandValue i.operand ≠ 0)
    (hrange : ¬ (s.readReg i.dst = 0x80000000#32 ∧ s.operandValue i.operand = 0xFFFFFFFF#32)) :
    ∃ q r : Word, TruncatingDivision (s.readReg i.dst).toInt (s.operandValue i.operand).toInt q.toInt r.toInt ∧
      Completes i s (withPair s i.dst q r) 4 s.isRunning :=
  ⟨_, _, truncatingDivision_div_results hv hrange,
    completes_of_opcode_div h (divFault_eq_none hv fun hd hv' => absurd ⟨hd, hv'⟩ hrange)⟩

variable (hd : s.readReg i.dst = 0x80000000#32) (hv : s.operandValue i.operand = 0xFFFFFFFF#32)
include hd hv

/-- -2147483648 / -1 under DIV_OVERFLOW = wrap (42_mul_div.md R84). -/
theorem completes_of_div_overflow_wrap (hp : s.config.divOverflow = .wrap) :
    Completes i s (withPair s i.dst 0x80000000#32 0) 4 s.isRunning := by
  have hquotient : divQuotient 0x80000000#32 0xFFFFFFFF#32 = 0x80000000#32 := by decide
  have hremainder : divRemainder 0x80000000#32 0xFFFFFFFF#32 = 0 := by decide
  have hdone := completes_of_opcode_div h (s := s)
  rw [hd, hv, hquotient, hremainder] at hdone
  exact hdone (divFault_eq_none (by decide) (by simp [hp]))

/-- -2147483648 / -1 under DIV_OVERFLOW = fault (42_mul_div.md R84). -/
theorem faultTaken_of_div_overflow (hp : s.config.divOverflow = .fault) :
    ∃ t, exec i s = .next t ∧ FaultTaken s (.arithmeticError .divideOverflow) t :=
  faultTaken_of_opcode_div h (divFault_eq_some.2 (.inr ⟨rfl, hd, hv, hp⟩))

end

/-! ## Instructions with one word -/

/-- A completed instruction that writes one register leaves the value there. -/
theorem readReg_of_completes_withReg {i : Instr} {s : State} {dst : RegIdx} {v : Word} {n : Nat} {running : Bool}
    (h : Completes i s (withReg s dst v) n running) : ∃ t, exec i s = .next t ∧ t.readReg dst = v := by
  obtain ⟨t, hexec, hregs, -⟩ := h
  exact ⟨t, hexec, (hregs dst).trans (if_pos rfl)⟩

end Sys2Proof.Machine

namespace Sys2Proof.Proofs
open Sys2Proof.Machine

/-- Settles O14: wrapping changes an integer by a multiple of 2^32, and the wrapped results are those of the words. -/
theorem sumsAndDifferencesWrapModulo : Obligations.SumsAndDifferencesWrapModulo := by
  refine ⟨fun a b => ⟨dvd_toInt_wrap32_sub _, dvd_toInt_wrap32_sub _, ?sum, ?difference⟩, by decide, by decide⟩
  case sum => rw [addWrap_eq, BitVec.toNat_add]
  case difference => rw [subWrap_eq, BitVec.toNat_sub, Nat.add_comm]

/-- Settles O16: with a nonzero operand value, and outside the overflow, no fault is indicated. -/
theorem divWritesQuotientAndRemainder : Obligations.DivWritesQuotientAndRemainder := by
  intro s dst
  refine ⟨fun src hv hrange => ?register, fun v hv hrange => ?immediate⟩
  case register => exact completes_of_opcode_div_in_range (i := .divR dst src) rfl hv hrange
  case immediate => exact completes_of_opcode_div_in_range (i := .divI dst v) rfl hv hrange

/-- Settles O17: in each form the operand value is 0. -/
theorem divFaultsOnAZeroOperand : Obligations.DivFaultsOnAZeroOperand := by
  intro s dst
  refine ⟨?noOperand, fun src hsrc => ?register, ?immediate⟩
  case noOperand => exact faultTaken_of_zero_operand (i := .divN dst) rfl rfl
  case register => exact faultTaken_of_zero_operand (i := .divR dst src) rfl hsrc
  case immediate => exact faultTaken_of_zero_operand (i := .divI dst 0) rfl rfl

/-- Settles O18: the parameter decides whether the result handler indicates the fault. -/
theorem divOverflowFollowsItsPolicy : Obligations.DivOverflowFollowsItsPolicy := by
  intro s dst hd
  refine ⟨fun hp => ⟨?wrapImm, fun src hsrc => ?wrapReg⟩, fun hp => ⟨?faultImm, fun src hsrc => ?faultReg⟩⟩
  case wrapImm => exact completes_of_div_overflow_wrap (i := .divI dst _) rfl hd rfl hp
  case wrapReg => exact completes_of_div_overflow_wrap (i := .divR dst src) rfl hd hsrc hp
  case faultImm => exact faultTaken_of_div_overflow (i := .divI dst _) rfl hd rfl hp
  case faultReg => exact faultTaken_of_div_overflow (i := .divR dst src) rfl hd hsrc hp

/-- Settles O21: forms `N` and `R` with source 0 add 0 and register 0, and the low 16 bits of 70000 are 4464. -/
theorem instructionsWithOneWordExecuteDifferently : Obligations.InstructionsWithOneWordExecuteDifferently := by
  refine ⟨fun s d hzero => ⟨encodeFields_none_eq_reg_zero .add d, ?add⟩,
    fun s d => ⟨encodeFields_imm_congr .mov d (by decide), ?mov⟩⟩
  case add =>
    obtain ⟨t, ht, htd⟩ := readReg_of_completes_withReg (completes_of_opcode_add (i := .addN d) rfl s)
    obtain ⟨u, hu, hud⟩ := readReg_of_completes_withReg (completes_of_opcode_add (i := .addR d 0) rfl s)
    refine ⟨t, u, ht, hu, fun h => hzero ?_⟩
    have hsum : s.readReg d + 0 = s.readReg d + s.readReg 0 := by
      rw [← addWrap_eq, ← addWrap_eq]
      exact htd.symm.trans (h.trans hud)
    exact (add_left_cancel hsum).symm
  case mov =>
    obtain ⟨t, ht, htd⟩ := readReg_of_completes_withReg (completes_of_opcode_mov (i := .movI d 70000#32) rfl s)
    obtain ⟨u, hu, hud⟩ := readReg_of_completes_withReg (completes_of_opcode_mov (i := .movI d 4464#32) rfl s)
    exact ⟨t, u, ht, hu, htd, hud⟩

end Sys2Proof.Proofs
end

section
/-!
PROOFS. Everything one step does (40_execution_step.md sections 1 to 5; 60_exceptions.md): it completes an accepted
instruction or takes a fault, what either leaves unchanged, and what is handed to the trace.
-/
namespace Sys2Proof.Machine

/-! ## Completion and faults -/

/-- An execution without fault advances the pc (40_execution_step.md R66). -/
theorem exec_pc_of_no_fault {i : Instr} {s t : State} (h : exec i s = .next t) (hfault : t.fault = none) :
    t.pc = s.pc + 1 := by
  rcases exec_next_cases h with ⟨-, rfl⟩ | ⟨v, -, rfl⟩ | ⟨lo, hi, -, rfl⟩ | ⟨k, -, -, rfl⟩
  case inr.inr.inr => simp at hfault
  all_goals rfl

/-- An execution from a state without fault leaves none, or is a `div` that takes the fault its result handler
indicates. -/
theorem exec_no_fault_or_raise {i : Instr} {s t : State} (h : exec i s = .next t) (hs : s.fault = none) :
    t.fault = none ∨ ∃ k, i.opcode = .div ∧
      divFault s.config.divOverflow (s.readReg i.dst) (s.operandValue i.operand) = some k ∧
      t = s.raise (.arithmeticError k) := by
  rcases exec_next_cases h with ⟨-, rfl⟩ | ⟨v, -, rfl⟩ | ⟨lo, hi, -, rfl⟩ | hraise
  case inr.inr.inr => exact .inr hraise
  all_goals exact .inl hs

/-- What the result handler indicates is a cause of the fault (60_exceptions.md R101, R115). -/
theorem faultCause_of_divFault {s : State} {item : ProgItem} {i : Instr} {k : ArithFault}
    (hitem : s.prog[s.pc]? = some item) (hacc : accept s.config item = .ok i) (hop : i.opcode = .div)
    (hfault : divFault s.config.divOverflow (s.readReg i.dst) (s.operandValue i.operand) = some k) :
    s.faultCause (.arithmeticError k) := by
  rcases divFault_eq_some.1 hfault with ⟨rfl, hzero⟩ | ⟨rfl, hd, hv, hp⟩
  · exact ⟨item, hitem, i, hacc, hop, hzero⟩
  · exact ⟨item, hitem, i, hacc, hop, hd, hv, hp⟩

/-- A step completes the accepted element at the pc, or takes a fault for which there is a cause. -/
theorem step_completes_or_raises {s t : State} (h : step s = .next t) :
    (t.fault = none ∧ ∃ item i, s.prog[s.pc]? = some item ∧ accept s.config item = .ok i ∧ exec i s = .next t) ∨
      ∃ k, s.faultCause k ∧ t = s.raise k := by
  obtain ⟨-, hnone, item, hitem, ⟨k, hacc, rfl⟩ | ⟨i, hacc, hexec⟩⟩ := step_next_cases h
  · exact .inr ⟨_, ⟨item, hitem, hacc⟩, rfl⟩
  · rcases exec_no_fault_or_raise hexec hnone with hdone | ⟨k, hop, hfault, rfl⟩
    · exact .inl ⟨hdone, item, i, hitem, hacc, hexec⟩
    · exact .inr ⟨_, faultCause_of_divFault hitem hacc hop hfault, rfl⟩

/-- The registers an execution changes (10_state.md section 1, the table of reads and writes). -/
theorem exec_changes_only_its_registers {i : Instr} {s t : State} {r : RegIdx} (h : exec i s = .next t)
    (hr : t.readReg r ≠ s.readReg r) :
    i ≠ .endE ∧ (r = i.dst ∨ (r = 7 ∧ (i.opcode = .mul ∨ i.opcode = .div))) := by
  rcases exec_next_cases h with ⟨-, rfl⟩ | ⟨v, hop, rfl⟩ | ⟨lo, hi, hop, rfl⟩ | ⟨k, -, -, rfl⟩
  · exact absurd rfl hr
  · refine ⟨?_, .inl ?_⟩
    · rintro rfl
      simp [Instr.opcode] at hop
    · by_contra hne
      exact hr ((s.readReg_writeReg _ _ _).trans (if_neg hne))
  · refine ⟨?_, ?_⟩
    · rintro rfl
      simp [Instr.opcode] at hop
    · by_contra hne
      obtain ⟨hdst, hside⟩ := not_or.1 hne
      refine hr ((s.readReg_writePair _ _ _ _).trans ?_)
      rw [if_neg fun h7 => hside ⟨h7, hop⟩, if_neg hdst]
  · exact absurd rfl hr

/-! ## The ends of a run -/

theorem canStep_iff_ending (s : State) : s.canStep ↔ s.ending = none := by
  unfold State.canStep State.ending
  cases s.isRunning <;> cases s.fault <;> simp

/-- The stop that `step` answers at an end of the run (log 7). -/
def RunEnd.stop : RunEnd → Fault
  | .halted => .halted
  | .faulted => .faulted
  | .exhausted => .exhausted

theorem RunEnd.stop_injective : Function.Injective RunEnd.stop := by
  intro e e' h
  cases e <;> cases e' <;> trivial

theorem step_of_ending {s : State} {e : RunEnd} (h : s.ending = some e) : step s = .fault e.stop := by
  suffices hfetch : s.fetch = .error e.stop by rw [step, hfetch]
  unfold State.ending at h
  unfold State.fetch
  cases hrun : s.isRunning with
  | false =>
    rw [if_pos hrun] at h
    cases h
    rfl
  | true =>
    rw [if_neg (by simp [hrun])] at h
    cases hfault : s.fault with
    | some f =>
      rw [if_pos (by simp [hfault])] at h
      cases h
      rfl
    | none =>
      rw [if_neg (by simp [hfault])] at h
      split at h
      case isTrue hpc =>
        cases h
        rw [List.getElem?_eq_none hpc]
        rfl
      case isFalse => cases h

/-- `step` stops under the name of the end of the run, and only there (40_execution_step.md R69, log 7). -/
theorem step_eq_stop_iff {s : State} (e : RunEnd) : step s = .fault e.stop ↔ s.ending = some e := by
  refine ⟨fun h => ?_, step_of_ending⟩
  cases hend : s.ending with
  | none =>
    obtain ⟨t, ht⟩ := step_eq_next_of_canStep ((canStep_iff_ending s).2 hend)
    cases ht.symm.trans h
  | some e' =>
    have hstop := (step_of_ending hend).symm.trans h
    rw [RunEnd.stop_injective (Host.Outcome.fault.inj hstop)]

theorem step_ne_refused (s : State) (r : Refusal) : step s ≠ .refused r := by
  intro h
  cases hend : s.ending with
  | none =>
    obtain ⟨t, ht⟩ := step_eq_next_of_canStep ((canStep_iff_ending s).2 hend)
    cases ht.symm.trans h
  | some e => cases (step_of_ending hend).symm.trans h

theorem ending_of_recorded_fault {s : State} {f : FaultRecord} (hrun : s.isRunning = true)
    (hfault : s.fault = some f) : s.ending = some .faulted := by
  simp [State.ending, hrun, hfault]

/-! ## The trace -/

theorem traceOut_of_accepted {s : State} {item : ProgItem} {i : Instr} (h : s.canStep)
    (hitem : s.prog[s.pc]? = some item) (hacc : accept s.config item = .ok i) :
    s.traceOut = some { text := item.text, word := encode i } := by
  obtain ⟨hrun, hnone, -⟩ := h
  simp [State.traceOut, fetch_ok_iff.2 ⟨hrun, hnone, hitem⟩, hacc]

/-- What the trace is handed comes from a step that is taken and an element that is accepted. -/
theorem accepted_of_traceOut {s : State} {e : TraceEntry} (h : s.traceOut = some e) :
    s.canStep ∧ ∃ item i, s.prog[s.pc]? = some item ∧ accept s.config item = .ok i := by
  cases hfetch : s.fetch with
  | error f => simp [State.traceOut, hfetch] at h
  | ok item =>
    obtain ⟨hrun, hnone, hitem⟩ := fetch_ok_iff.1 hfetch
    obtain ⟨hpc, -⟩ := List.getElem?_eq_some_iff.1 hitem
    cases hacc : accept s.config item with
    | error k => simp [State.traceOut, hfetch, hacc] at h
    | ok i => exact ⟨⟨hrun, hnone, hpc⟩, item, i, hitem, hacc⟩

/-! ## A placed word -/

theorem length_padTo (n : Nat) (l : List ProgItem) : (padTo n l).length = n := by
  simp only [padTo, List.length_append, List.length_take, List.length_replicate]
  omega

/-- A step from a state with an element placed fetches that element (log 4). -/
theorem fetch_placeNext (s : State) (e : ProgItem) : (s.placeNext (some e)).fetch = .ok e := by
  rw [fetch_ok_iff]
  refine ⟨rfl, rfl, ?_⟩
  change (padTo s.pc s.prog ++ e :: s.prog.drop (s.pc + 1))[s.pc]? = some e
  rw [List.getElem?_append_right (length_padTo _ _).le, length_padTo, Nat.sub_self, List.getElem?_cons_zero]

theorem withFetchWord_eq_placeNext {w : Nat} {i : Instr} (h : decodeTableWord 32 w = some i) (s : State) :
    s.withFetchWord 32 w = s.placeNext (some (.port (portOf i))) := by
  rw [State.withFetchWord, itemOfTableWord, h, Option.map_some]

/-! ## Text at the port -/

theorem accept_dropPortText (cfg : Config) (item : ProgItem) : accept cfg (dropPortText item) = accept cfg item := by
  cases item <;> rfl

/-- The two states agree in all but the sequence, the parameters and the text of a fault record. -/
def State.AgreesButText (u t : State) : Prop :=
  u.x = t.x ∧ u.pc = t.pc ∧ u.cycleCount = t.cycleCount ∧ u.instructionCount = t.instructionCount ∧
    u.isRunning = t.isRunning ∧
    u.fault.map (fun f => (f.kind, f.atPc)) = t.fault.map (fun f => (f.kind, f.atPc))

theorem agreesButText_of_eq_withProg {u t : State} {prog : List ProgItem} (h : u = t.withProg prog) :
    u.AgreesButText t := by
  rw [h]
  exact ⟨rfl, rfl, rfl, rfl, rfl, rfl⟩

theorem agreesButText_raise_withProg (s : State) (prog : List ProgItem) (k : FaultKind) :
    ((s.withProg prog).raise k).AgreesButText (s.raise k) :=
  ⟨rfl, rfl, rfl, rfl, rfl, rfl⟩

/-- An execution reads the sequence nowhere but for the text of a fault. -/
theorem exec_withProg_agreesButText {i : Instr} {s t : State} (h : exec i s = .next t) (prog : List ProgItem) :
    ∃ u, exec i (s.withProg prog) = .next u ∧ u.AgreesButText t := by
  rw [exec_by_opcode] at h ⊢
  cases hop : i.opcode <;> simp only [hop] at h ⊢
  case endOp | mov | add | sub | mul =>
    cases h
    exact ⟨_, rfl, agreesButText_of_eq_withProg (prog := prog) rfl⟩
  case div =>
    cases hf : divFault s.config.divOverflow (s.readReg i.dst) (s.operandValue i.operand) with
    | none =>
      rw [applyDiv_of_no_fault hf] at h
      cases h
      refine ⟨_, applyDiv_of_no_fault (by simpa using hf), ?_⟩
      rw [State.readReg_withProg, State.operandValue_withProg]
      exact agreesButText_of_eq_withProg (prog := prog) rfl
    | some k =>
      rw [applyDiv_of_fault hf] at h
      cases h
      exact ⟨_, applyDiv_of_fault (by simpa using hf), agreesButText_raise_withProg s prog _⟩

/-- A step over a sequence whose element at the pc is accepted alike goes alike, but for the text of a fault. -/
theorem step_withProg_agreesButText {s t : State} {prog : List ProgItem} (h : step s = .next t)
    (hprog : ∀ item, s.prog[s.pc]? = some item →
      ∃ item', prog[s.pc]? = some item' ∧ accept s.config item' = accept s.config item) :
    ∃ u, step (s.withProg prog) = .next u ∧ u.AgreesButText t := by
  obtain ⟨hrun, hnone, item, hitem, hcases⟩ := step_next_cases h
  obtain ⟨item', hitem', hsame⟩ := hprog item hitem
  rcases hcases with ⟨k, hacc, rfl⟩ | ⟨i, hacc, hexec⟩
  · exact ⟨_, step_of_rejected (s := s.withProg prog) hrun hnone hitem' (hsame.trans hacc),
      agreesButText_raise_withProg s prog _⟩
  · rw [step_of_accepted (s := s.withProg prog) hrun hnone hitem' (hsame.trans hacc)]
    exact exec_withProg_agreesButText hexec prog

end Sys2Proof.Machine

namespace Sys2Proof.Proofs
open Sys2Proof.Machine

/-- Settles O9: a handed-over entry needs a step that is taken and an accepted element. -/
theorem traceHandsOverTextAndWord : Obligations.TraceHandsOverTextAndWord := by
  refine fun s => ⟨fun hstop => ?noStep, fun item i => traceOut_of_accepted, fun item k hitem hrej => ?rejected⟩
  case noStep =>
    exact Option.eq_none_iff_forall_ne_some.2 fun e he => hstop (accepted_of_traceOut he).1
  case rejected =>
    refine Option.eq_none_iff_forall_ne_some.2 fun e he => ?_
    obtain ⟨-, item', i, hitem', hacc⟩ := accepted_of_traceOut he
    cases hitem.symm.trans hitem'
    cases hrej.symm.trans hacc

/-- Settles O22. -/
theorem stepRunsTheAcceptedInstruction : Obligations.StepRunsTheAcceptedInstruction :=
  fun _ _ _ ⟨hrun, hnone, _⟩ hitem hacc => step_of_accepted hrun hnone hitem hacc

/-- Settles O23: the placed element is the decoded instruction's port form, which the port accepts as itself. -/
theorem placedWordRunsItsDecodedInstruction : Obligations.PlacedWordRunsItsDecodedInstruction := by
  intro s w i hw
  rw [withFetchWord_eq_placeNext hw]
  refine ⟨?_, fun _ => rfl, rfl⟩
  obtain ⟨hrun, hnone, hitem⟩ := fetch_ok_iff.1 (fetch_placeNext s (.port (portOf i)))
  exact step_of_accepted hrun hnone hitem (acceptPort_portOf i)

/-- Settles O24. -/
theorem rejectedElementTakesItsParseFault : Obligations.RejectedElementTakesItsParseFault :=
  fun s _ k ⟨hrun, hnone, _⟩ hitem hrej =>
    ⟨_, step_of_rejected hrun hnone hitem hrej, faultTaken_raise s (.parseError k)⟩

/-- Settles O26, by the stop of each end; `exec` refuses nothing. -/
theorem endedRunsStopByName : Obligations.EndedRunsStopByName := by
  intro s
  exact ⟨step_eq_stop_iff .halted, step_eq_stop_iff .faulted, step_eq_stop_iff .exhausted, canStep_iff_ending s,
    fun m => step_ne_refused s (.notModelled m)⟩

/-- Settles O29: a completed step has advanced the pc, and taking a fault changes nothing but the record. -/
theorem pcAdvancesExactlyByCompletion : Obligations.PcAdvancesExactlyByCompletion := by
  intro s t h
  rcases step_completes_or_raises h with ⟨hfault, item, i, -, -, hexec⟩ | ⟨k, -, rfl⟩
  · exact .inl ⟨hfault, exec_pc_of_no_fault hexec hfault⟩
  · exact .inr ⟨by simp, rfl, rfl, rfl⟩

/-- Settles O30: taking a fault changes no register, so the step completed. -/
theorem registersChangeOnlyByTheirInstruction : Obligations.RegistersChangeOnlyByTheirInstruction := by
  intro s t r h hr
  rcases step_completes_or_raises h with ⟨hfault, item, i, hitem, hacc, hexec⟩ | ⟨k, -, rfl⟩
  · exact ⟨hfault, item, i, hitem, hacc, exec_changes_only_its_registers hexec hr⟩
  · exact absurd rfl hr

/-- Settles O31: a step that leaves a fault has taken it, and the engine is still Running with the record set. -/
theorem faultsArePreciseAndFinal : Obligations.FaultsArePreciseAndFinal := by
  intro s t f h hf
  obtain ⟨hrun, hnone, -⟩ := canStep_of_step_next h
  rcases step_completes_or_raises h with ⟨hfault, -⟩ | ⟨k, hcause, rfl⟩
  · simp [hfault] at hf
  · obtain rfl : f.kind = k := by
      rw [State.raise_fault] at hf
      cases hf
      rfl
    have hend : (s.raise f.kind).ending = some .faulted := ending_of_recorded_fault hrun hf
    exact ⟨hnone, faultTaken_raise s f.kind, hcause, step_of_ending hend⟩

/-- Settles O32. -/
theorem stepsKeepSequenceAndParameters : Obligations.StepsKeepSequenceAndParameters :=
  fun _ _ => step_keeps_run

/-- Settles O40: dropping the text changes no element's acceptance. -/
theorem portTextIsNeverExecuted : Obligations.PortTextIsNeverExecuted := by
  intro s t h
  refine step_withProg_agreesButText h fun item hitem => ⟨dropPortText item, ?_, accept_dropPortText _ _⟩
  rw [List.getElem?_map, hitem, Option.map_some]

end Sys2Proof.Proofs
end

section
/-!
PROOFS. Runs (40_execution_step.md section 6): the invariant at the start and along every step, how and when a run
ends, the bounds on the cycles, and what the host reads (10_state.md R22, R24).
-/
namespace Sys2Proof.Machine

/-! ## The invariant -/

theorem runInvariant_beginRun (cfg : Config) (prog : List ProgItem) : RunInvariant (State.beginRun cfg prog) where
  pc_le := Nat.zero_le _
  count_eq := rfl
  accepted := by simp [State.reset]
  cycles_eq := by simp [State.reset]
  running := by simp [State.reset]
  halted := by simp [State.reset]
  recorded := by simp [State.reset]

theorem itemCost_of_accepted {cfg : Config} {item : ProgItem} {i : Instr} (h : accept cfg item = .ok i) :
    itemCost cfg item = cost i.opcode := by
  rw [itemCost, h]

/-- Taking a fault with a cause keeps the invariant: the record is the only change, and its cause still holds. -/
theorem RunInvariant.raise {s : State} (hs : RunInvariant s) (hrun : s.isRunning = true) {k : FaultKind}
    (hcause : s.faultCause k) : RunInvariant (s.raise k) where
  pc_le := hs.pc_le
  count_eq := hs.count_eq
  accepted := hs.accepted
  cycles_eq := hs.cycles_eq
  running := hs.running
  halted hhalted := by
    rw [State.raise_isRunning, hrun] at hhalted
    cases hhalted
  recorded f hf := by
    rw [State.raise_fault] at hf
    cases hf
    exact ⟨rfl, rfl, hcause⟩

/-- A completed step keeps the invariant: the element at the pc joins those that are accounted for, and is the last of
them if it is `end`. -/
theorem RunInvariant.completed {s t : State} (hs : RunInvariant s) (hstep : step s = .next t) (hfault : t.fault = none)
    {item : ProgItem} {i : Instr} (hitem : s.prog[s.pc]? = some item) (hacc : accept s.config item = .ok i)
    (hexec : exec i s = .next t) : RunInvariant t := by
  obtain ⟨hprog, hconfig⟩ := step_keeps_run hstep
  obtain ⟨hcount, hcycles⟩ := exec_counts_of_no_fault hexec hfault
  have hpc := exec_pc_of_no_fault hexec hfault
  have hrun := isRunning_of_step_next hstep
  have htake : t.prog.take t.pc = s.prog.take s.pc ++ [item] := by
    rw [hprog, hpc, List.take_add_one, hitem, Option.toList_some]
  have hend : t.isRunning = false ↔ i = .endE := by
    rw [exec_isRunning_eq_false_iff hexec, hrun, or_iff_left (by decide)]
  constructor
  case pc_le =>
    obtain ⟨hlt, -⟩ := List.getElem?_eq_some_iff.1 hitem
    rw [hprog, hpc]
    exact hlt
  case count_eq => rw [hcount, hpc, hs.count_eq]
  case accepted =>
    rw [htake, hconfig, List.forall_mem_append, List.forall_mem_singleton]
    exact ⟨hs.accepted, i, hacc⟩
  case cycles_eq =>
    rw [htake, hconfig, hcycles, hs.cycles_eq, List.map_append, List.sum_append, List.map_singleton,
      List.sum_singleton, itemCost_of_accepted hacc]
  case running =>
    intro hrunning
    rw [htake, hconfig, List.forall_mem_append, List.forall_mem_singleton, hacc]
    refine ⟨hs.running hrun, fun h => ?_⟩
    rw [hend.2 (Except.ok.inj h)] at hrunning
    cases hrunning
  case halted =>
    intro hhalted
    rw [htake, hconfig]
    exact ⟨hfault, _, item, rfl, hend.1 hhalted ▸ hacc, hs.running hrun⟩
  case recorded =>
    intro f hf
    rw [hfault] at hf
    cases hf

theorem RunInvariant.step_next {s t : State} (hs : RunInvariant s) (hstep : step s = .next t) : RunInvariant t := by
  rcases step_completes_or_raises hstep with ⟨hfault, item, i, hitem, hacc, hexec⟩ | ⟨k, hcause, rfl⟩
  · exact hs.completed hstep hfault hitem hacc hexec
  · exact hs.raise (isRunning_of_step_next hstep) hcause

/-! ## Runs -/

theorem runFor_succ_of_step {s t : State} (h : step s = .next t) (n : Nat) :
    State.runFor (n + 1) s = State.runFor n t := by
  rw [State.runFor, h]

/-- What every step keeps, a run keeps. -/
theorem runFor_induction {P : State → Prop} (hstep : ∀ s t, P s → step s = .next t → P t) (n : Nat) {s : State}
    (hs : P s) : P (State.runFor n s) := by
  induction n generalizing s with
  | zero => exact hs
  | succ n ih =>
    by_cases h : ∃ t, step s = .next t
    · obtain ⟨t, ht⟩ := h
      rw [runFor_succ_of_step ht]
      exact ih (hstep s t hs ht)
    · rwa [runFor_of_no_step (not_exists.1 h)]

/-- An ended run is final. -/
theorem runFor_of_ending {s : State} {e : RunEnd} (h : s.ending = some e) (n : Nat) : State.runFor n s = s :=
  runFor_of_no_step (fun t ht => by cases (step_of_ending h).symm.trans ht) n

theorem runFor_add (m n : Nat) (s : State) : State.runFor (m + n) s = State.runFor n (State.runFor m s) := by
  induction m generalizing s with
  | zero => rw [Nat.zero_add]; rfl
  | succ m ih =>
    cases h : s.ending with
    | none =>
      obtain ⟨t, ht⟩ := step_eq_next_of_canStep ((canStep_iff_ending s).2 h)
      rw [Nat.add_right_comm, runFor_succ_of_step ht, runFor_succ_of_step ht, ih]
    | some e => simp only [runFor_of_ending h]

/-- A step ends the run with a fault or leaves one element fewer to run. -/
theorem ending_or_pc_of_step_next {s t : State} (h : step s = .next t) :
    t.ending = some .faulted ∨ t.pc = s.pc + 1 := by
  rcases step_completes_or_raises h with ⟨hfault, item, i, -, -, hexec⟩ | ⟨k, -, rfl⟩
  · exact .inr (exec_pc_of_no_fault hexec hfault)
  · have hrun := isRunning_of_step_next h
    exact .inl (ending_of_recorded_fault (s := s.raise k) hrun (s.raise_fault k))

/-- With as many steps as elements are left, a run ends (40_execution_step.md section 6). -/
theorem ending_runFor {s : State} {n : Nat} (h : s.prog.length - s.pc ≤ n) :
    ∃ e, (State.runFor n s).ending = some e := by
  induction n generalizing s with
  | zero =>
    rw [← Option.ne_none_iff_exists', State.runFor, Ne, ← canStep_iff_ending]
    rintro ⟨-, -, hpc⟩
    omega
  | succ n ih =>
    cases hend : s.ending with
    | some e => exact ⟨e, by rw [runFor_of_ending hend, hend]⟩
    | none =>
      obtain ⟨t, ht⟩ := step_eq_next_of_canStep ((canStep_iff_ending s).2 hend)
      rw [runFor_succ_of_step ht]
      rcases ending_or_pc_of_step_next ht with hfaulted | hpc
      · exact ⟨.faulted, by rw [runFor_of_ending hfaulted, hfaulted]⟩
      · refine ih ?_
        rw [(step_keeps_run ht).1, hpc]
        omega

/-- Where a run is exhausted, it is Running with no element left. -/
theorem ending_eq_exhausted {s : State} (h : s.ending = some .exhausted) :
    s.isRunning = true ∧ s.prog.length ≤ s.pc := by
  unfold State.ending at h
  split at h
  case isTrue => cases h
  case isFalse hrun =>
    split at h
    case isTrue => cases h
    case isFalse =>
      split at h
      case isTrue hpc => exact ⟨by simpa using hrun, hpc⟩
      case isFalse => cases h

/-- What a run from the start keeps: the invariant, the sequence and the parameters. -/
theorem runInvariant_runFor (cfg : Config) (prog : List ProgItem) (n : Nat) :
    RunInvariant (State.runFor n (State.beginRun cfg prog)) ∧
      (State.runFor n (State.beginRun cfg prog)).prog = prog ∧
      (State.runFor n (State.beginRun cfg prog)).config = cfg := by
  refine runFor_induction (P := fun s => RunInvariant s ∧ s.prog = prog ∧ s.config = cfg) ?_ n
    ⟨runInvariant_beginRun cfg prog, rfl, rfl⟩
  rintro s t ⟨hs, rfl, rfl⟩ hstep
  exact ⟨hs.step_next hstep, step_keeps_run hstep⟩

/-- No `end` is left behind by an engine that is still Running, so a sequence that holds one is not exhausted. -/
theorem RunInvariant.not_exhausted {s : State} (hs : RunInvariant s) (hend : Terminated s.config s.prog) :
    s.ending ≠ some .exhausted := by
  intro hexhausted
  obtain ⟨hrun, hpc⟩ := ending_eq_exhausted hexhausted
  obtain ⟨item, hmem, hacc⟩ := hend
  exact hs.running hrun item (by rwa [List.take_of_length_le hpc]) hacc

/-! ## Cycles and CPI -/

theorem cost_bounds (op : Opcode) : 1 ≤ cost op ∧ cost op ≤ 4 := by
  cases op <;> decide

/-- An accepted element costs between 1 and 4 (40_execution_step.md R65). -/
theorem itemCost_bounds {cfg : Config} {item : ProgItem} (h : ∃ i, accept cfg item = .ok i) :
    1 ≤ itemCost cfg item ∧ itemCost cfg item ≤ 4 := by
  obtain ⟨i, hi⟩ := h
  rw [itemCost_of_accepted hi]
  exact cost_bounds _

/-- The cycles are the sum of as many costs as the count (70_reset_and_hazards.md section 4). -/
theorem RunInvariant.cycles_bounds {s : State} (hs : RunInvariant s) :
    s.instructionCount ≤ s.cycleCount ∧ s.cycleCount ≤ 4 * s.instructionCount := by
  have hlen : ((s.prog.take s.pc).map (itemCost s.config)).length = s.instructionCount := by
    rw [List.length_map, List.length_take, min_eq_left hs.pc_le, hs.count_eq]
  have hbounds : ∀ c ∈ (s.prog.take s.pc).map (itemCost s.config), 1 ≤ c ∧ c ≤ 4 := by
    rw [List.forall_mem_map]
    exact fun item hitem => itemCost_bounds (hs.accepted item hitem)
  rw [hs.cycles_eq, ← hlen]
  constructor
  · simpa using List.card_nsmul_le_sum _ 1 fun c hc => (hbounds c hc).1
  · simpa [mul_comm] using List.sum_le_card_nsmul _ 4 fun c hc => (hbounds c hc).2

theorem cpi_eq_none_iff (s : State) : s.cpi = none ↔ s.instructionCount = 0 := by
  unfold State.cpi
  split <;> simp_all

theorem cpi_eq_some_iff {s : State} {q : Rat} :
    s.cpi = some q ↔ s.instructionCount ≠ 0 ∧ q = (s.cycleCount : Rat) / (s.instructionCount : Rat) := by
  unfold State.cpi
  split <;> simp_all [eq_comm]

/-! ## The report -/

/-- The registers as a list are the eight readings in the order of their indices (10_state.md R24). -/
theorem toList_getElem?_eq_readReg (s : State) (r : RegIdx) : s.x.toList[r.toNat]? = some (s.readReg r) := by
  rw [List.getElem?_eq_getElem (by simpa using r.isLt), Vector.getElem_toList, State.readReg]

theorem faultCode_eq (s : State) : s.faultCode =
    match s.fault.map FaultRecord.kind with
    | none => 0
    | some k => k.code := by
  unfold State.faultCode
  cases s.fault <;> rfl

end Sys2Proof.Machine

namespace Sys2Proof.Proofs
open Sys2Proof.Machine

/-- Settles O33: the start of a run is the state after reset with the two fields supplied. -/
theorem resetLeavesTheStatedValues : Obligations.ResetLeavesTheStatedValues :=
  ⟨State.readReg_reset, rfl, rfl, rfl, rfl, rfl, fun _ _ => ⟨rfl, rfl⟩⟩

/-- Settles O34: the state after reset is the start of a run of the empty sequence under the recommended parameters. -/
theorem runInvariantHoldsAtTheStart : Obligations.RunInvariantHoldsAtTheStart :=
  ⟨runInvariant_beginRun Config.recommended [], runInvariant_beginRun⟩

/-- Settles O35: a step completes the element at the pc or takes a fault, and either keeps the invariant. -/
theorem runInvariantKeptByEveryStep : Obligations.RunInvariantKeptByEveryStep :=
  fun _ _ => RunInvariant.step_next

/-- Settles O36: the steps beyond those that end the run change nothing. -/
theorem runsEndWithinTheSequence : Obligations.RunsEndWithinTheSequence := by
  intro s n hn
  refine ⟨?_, ending_runFor hn⟩
  obtain ⟨e, he⟩ := ending_runFor (s := s) le_rfl
  obtain ⟨k, rfl⟩ := Nat.exists_eq_add_of_le hn
  rw [runFor_add, runFor_of_ending he]

/-- Settles O37: the run ends, and the invariant excludes the third end. -/
theorem terminatedRunsAreNeverExhausted : Obligations.TerminatedRunsAreNeverExhausted := by
  intro cfg prog hend
  obtain ⟨hinv, hprog, hconfig⟩ := runInvariant_runFor cfg prog prog.length
  obtain ⟨e, he⟩ := ending_runFor (s := State.beginRun cfg prog) (n := prog.length) (Nat.sub_le _ _)
  have hne := hinv.not_exhausted (by rwa [hprog, hconfig])
  cases e with
  | halted => exact .inl he
  | faulted => exact .inr he
  | exhausted => exact absurd he hne

/-- Settles O38: CPI is the quotient of two numbers of which each is bounded by the other. -/
theorem cyclesLieBetweenOneAndFourPerInstruction : Obligations.CyclesLieBetweenOneAndFourPerInstruction := by
  intro s hs
  obtain ⟨hlow, hhigh⟩ := hs.cycles_bounds
  refine ⟨hlow, hhigh, fun q hq => ?_⟩
  obtain ⟨hne, rfl⟩ := cpi_eq_some_iff.1 hq
  have hpos : (0 : Rat) < s.instructionCount := by exact_mod_cast Nat.pos_of_ne_zero hne
  rw [one_le_div hpos, div_le_iff₀ hpos]
  exact ⟨by exact_mod_cast hlow, by exact_mod_cast hhigh⟩

/-- Settles O41: where the count is not 0, multiplying by it undoes the division. -/
theorem cpiIsTheExactQuotient : Obligations.CpiIsTheExactQuotient := by
  refine fun s => ⟨cpi_eq_none_iff s, fun q hq => ?_⟩
  obtain ⟨hne, rfl⟩ := cpi_eq_some_iff.1 hq
  exact div_mul_cancel₀ _ (by exact_mod_cast hne)

/-- Settles O42: the registers are read in the order of their indices, and the code goes by the kind of the fault. -/
theorem reportShowsTheWholeState : Obligations.ReportShowsTheWholeState := by
  intro s
  refine ⟨?decimals, ?binaries, fun r => ⟨?decimal, ?binary⟩, rfl, rfl, rfl, rfl, rfl, rfl, ?code⟩
  case decimals | binaries => simp [State.report]
  case decimal =>
    rw [State.report, List.getElem?_map, toList_getElem?_eq_readReg]
    rfl
  case binary =>
    rw [State.report, List.getElem?_map, toList_getElem?_eq_readReg]
    rfl
  case code =>
    refine (faultCode_eq s).trans ?_
    rcases s.fault.map FaultRecord.kind with _ | (_ | _ | _ | _) | (_ | _) <;> rfl

end Sys2Proof.Proofs
end

section
/-!
PROOFS. Letter case and blanks (30_encoding.md R55, decision D18): the tokeniser and every small parser read a text and
its lower-cased form alike, and no run of blanks matters but for being there.
-/
namespace Sys2Proof.Machine

/-! ## Characters -/

/-- What holds of every character that is no capital letter, and of the 26 letters A to Z, holds of every character. -/
theorem char_induction_upper {P : Char → Prop} (hother : ∀ c, ¬ c.isUpper → P c)
    (hupper : ∀ k : Fin 26, P (Char.ofNat (65 + k))) (c : Char) : P c := by
  by_cases h : c.isUpper
  · obtain ⟨hlow, hhigh⟩ : 65 ≤ c.toNat ∧ c.toNat ≤ 90 := by
      simpa [Char.isUpper, UInt32.le_iff_toNat_le] using h
    have hk := hupper ⟨c.toNat - 65, by omega⟩
    rwa [Nat.add_sub_cancel' hlow, Char.ofNat_toNat] at hk
  · exact hother c h

/-- A test that does not tell a capital letter from its small one is not changed by lower-casing. -/
theorem comp_toLower {α : Type} {f : Char → α}
    (h : ∀ k : Fin 26, f (Char.ofNat (65 + k)).toLower = f (Char.ofNat (65 + k))) (c : Char) :
    f c.toLower = f c := by
  induction c using char_induction_upper with
  | hother c hc => rw [Char.toLower_eq_of_not_isUpper hc]
  | hupper k => exact h k

@[simp] theorem isBlank_toLower (c : Char) : isBlank c.toLower = isBlank c :=
  comp_toLower (by decide) c

@[simp] theorem isRegLetter_toLower (c : Char) : isRegLetter c.toLower = isRegLetter c :=
  comp_toLower (by decide) c

@[simp] theorem regOfDigit_toLower (c : Char) : regOfDigit c.toLower = regOfDigit c :=
  comp_toLower (by decide) c

@[simp] theorem isDigit_toLower (c : Char) : c.toLower.isDigit = c.isDigit :=
  comp_toLower (by decide) c

/-- Lower-casing neither makes nor removes a character that is no letter. -/
theorem toLower_eq_iff {c d : Char} (hd : d.isAlpha = false) : c.toLower = d ↔ c = d := by
  constructor
  · rintro rfl
    have hc : ¬ c.isUpper := fun hc => by simp [Char.isAlpha, hc] at hd
    exact (Char.toLower_eq_of_not_isUpper hc).symm
  · rintro rfl
    exact Char.toLower_eq_of_not_isUpper fun hc => by simp [Char.isAlpha, hc] at hd

theorem toLower_of_isDigit {c : Char} (h : c.isDigit = true) : c.toLower = c := by
  refine Char.toLower_eq_of_not_isUpper fun hc => ?_
  simp only [Char.isDigit, Char.isUpper, UInt32.le_iff_toNat_le, Bool.and_eq_true, decide_eq_true_iff] at h hc
  exact absurd (hc.1.trans h.2) (by decide)

/-! ## Lower-cased tokens -/

/-- A token in lower case. -/
def lowerToken (t : Token) : Token := t.map Char.toLower

@[simp] theorem lowerToken_nil : lowerToken [] = [] := rfl

@[simp] theorem lowerToken_cons (c : Char) (t : Token) : lowerToken (c :: t) = c.toLower :: lowerToken t := rfl

@[simp] theorem lowerToken_lowerToken (t : Token) : lowerToken (lowerToken t) = lowerToken t := by
  simp [lowerToken]

theorem consToken_lowerToken (t : Token) (ts : List Token) :
    consToken (lowerToken t) (ts.map lowerToken) = (consToken t ts).map lowerToken := by
  cases t <;> simp [consToken]

theorem splitTokens_map_toLower (cs : List Char) :
    splitTokens (cs.map Char.toLower) = (lowerToken (splitTokens cs).1, (splitTokens cs).2.map lowerToken) := by
  induction cs with
  | nil => rfl
  | cons c cs ih =>
    rw [List.map_cons]
    cases hc : isBlank c with
    | true => rw [splitTokens_blank ((isBlank_toLower c).trans hc), splitTokens_blank hc, tokens, ih,
        consToken_lowerToken, tokens, lowerToken_nil]
    | false => rw [splitTokens_char ((isBlank_toLower c).trans hc), splitTokens_char hc, ih, lowerToken_cons]

/-- Lower-casing a line lower-cases its tokens. -/
theorem tokens_map_toLower (cs : List Char) : tokens (cs.map Char.toLower) = (tokens cs).map lowerToken := by
  rw [tokens, splitTokens_map_toLower, consToken_lowerToken, tokens]

@[simp] theorem opcodeOfToken_lowerToken (t : Token) : opcodeOfToken (lowerToken t) = opcodeOfToken t := by
  have h : (lowerToken t).map Char.toLower = t.map Char.toLower := lowerToken_lowerToken t
  rw [opcodeOfToken, h, opcodeOfToken]

/-- A register token has two or three characters, of which only the letter has a case. -/
@[simp] theorem parseReg_lowerToken (t : Token) : parseReg (lowerToken t) = parseReg t := by
  match t with
  | [] | [_] | _ :: _ :: _ :: _ :: _ => rfl
  | [l, d] => simp [parseReg]
  | [l, d, p] =>
    have hcomma : p.toLower = ',' ↔ p = ',' := toLower_eq_iff (by decide)
    have hcolon : p.toLower = ':' ↔ p = ':' := toLower_eq_iff (by decide)
    simp [parseReg, hcomma, hcolon]

@[simp] theorem startsWithR_lowerToken (t : Token) : startsWithR (lowerToken t) = startsWithR t := by
  cases t <;> simp [startsWithR]

theorem lowerToken_of_digits {t : Token} (h : ∀ c ∈ t, c.isDigit = true) : lowerToken t = t :=
  (List.map_congr_left fun c hc => toLower_of_isDigit (h c hc)).trans (List.map_id t)

@[simp] theorem digitsValue_lowerToken (t : Token) : digitsValue (lowerToken t) = digitsValue t := by
  by_cases h : ∀ c ∈ t, c.isDigit = true
  · rw [lowerToken_of_digits h]
  · have hno (u : Token) (hu : ¬ ∀ c ∈ u, c.isDigit = true) : digitsValue u = none :=
      Option.eq_none_iff_forall_ne_some.2 fun n hn => hu (digitsValue_eq_some.1 hn).2.1
    rw [hno t h, hno (lowerToken t) (by simpa [lowerToken] using h)]

/-! ## Literals by their first character -/

@[simp] theorem literalValue_minus (p : PlusSignPolicy) (ds : Token) :
    literalValue p ('-' :: ds) = (digitsValue ds).map fun n : Nat => -(n : Int) := rfl

@[simp] theorem literalValue_plus_accept (ds : Token) :
    literalValue .accept ('+' :: ds) = (digitsValue ds).map fun n : Nat => (n : Int) := rfl

@[simp] theorem literalValue_plus_reject (ds : Token) : literalValue .reject ('+' :: ds) = none := rfl

theorem literalValue_of_no_sign (p : PlusSignPolicy) {c : Char} (hminus : c ≠ '-') (hplus : c ≠ '+') (ds : Token) :
    literalValue p (c :: ds) = (digitsValue (c :: ds)).map fun n : Nat => (n : Int) := by
  unfold literalValue
  split <;> simp_all

@[simp] theorem literalValue_lowerToken (p : PlusSignPolicy) (t : Token) :
    literalValue p (lowerToken t) = literalValue p t := by
  cases t with
  | nil => rfl
  | cons c ds =>
    have hminus : c.toLower = '-' ↔ c = '-' := toLower_eq_iff (by decide)
    have hplus : c.toLower = '+' ↔ c = '+' := toLower_eq_iff (by decide)
    by_cases h1 : c = '-'
    · rw [lowerToken_cons, hminus.2 h1, h1, literalValue_minus, literalValue_minus, digitsValue_lowerToken]
    · by_cases h2 : c = '+'
      · rw [lowerToken_cons, hplus.2 h2, h2]
        cases p <;> simp
      · rw [literalValue_of_no_sign p h1 h2, lowerToken_cons,
          literalValue_of_no_sign p (h1 ∘ hminus.1) (h2 ∘ hplus.1), ← lowerToken_cons, digitsValue_lowerToken]

@[simp] theorem parseOperand_lowerToken (cfg : Config) (t : Token) :
    parseOperand cfg (lowerToken t) = parseOperand cfg t := by
  simp [parseOperand, parseImm]

/-! ## Lower-cased lines -/

@[simp] theorem parseFields_map_lowerToken (cfg : Config) (op : Opcode) (ts : List Token) :
    parseFields cfg op (ts.map lowerToken) = parseFields cfg op ts := by
  match ts with
  | [] => rfl
  | [d] => simp [parseFields]
  | d :: t :: extra => simp [parseFields]

theorem parseTokens_map_lowerToken (cfg : Config) (ts : List Token) :
    parseTokens cfg (ts.map lowerToken) = parseTokens cfg ts := by
  cases ts with
  | nil => rfl
  | cons t rest => simp [parseTokens]

end Sys2Proof.Machine

namespace Sys2Proof.Proofs
open Sys2Proof.Machine

/-- Settles O45: the tokens are the same. -/
theorem runsOfBlanksAreInterchangeable : Obligations.RunsOfBlanksAreInterchangeable := by
  intro cfg a b cs ds ha hb
  refine ⟨?ends, fun hna hnb => ?inside⟩
  case ends => rw [parseChars, parseChars, tokens_append_trailing hb, tokens_blank_append ha]
  case inside =>
    rw [parseChars, parseChars, List.append_assoc, List.append_assoc, tokens_gap hna ha, tokens_gap hnb hb]

/-- Settles O46: the tokens are those of the line in lower case, which every parser reads alike. -/
theorem letterCaseIsIgnored : Obligations.LetterCaseIsIgnored := by
  intro cfg cs
  rw [parseChars, tokens_map_toLower, parseTokens_map_lowerToken, parseChars]

end Sys2Proof.Proofs
end

section
/-!
PROOFS. The front end and the port (30_encoding.md R55 to R59; 10_state.md R23): what each parser answers, when it
accepts, and how the grammar, the canonical spelling and the parameters stand to it.
-/
namespace Sys2Proof.Machine

/-! ## What each parser answers -/

section
variable {cfg : Config} {t : Token}

theorem parseOperand_of_starts_with_r (hr : startsWithR t = true) {r : RegIdx} (h : parseReg t = some r) :
    parseOperand cfg t = .ok (.reg r) := by
  simp [parseOperand, hr, h]

theorem parseOperand_of_malformed_reg (hr : startsWithR t = true) (h : parseReg t = none) :
    parseOperand cfg t = .error .invalidRegister := by
  simp [parseOperand, hr, h]

theorem parseOperand_of_imm (hr : startsWithR t = false) {v : Word} (h : parseImm cfg t = some v) :
    parseOperand cfg t = .ok (.imm v) := by
  simp [parseOperand, hr, h]

theorem parseOperand_of_malformed_imm (hr : startsWithR t = false) (h : parseImm cfg t = none) :
    parseOperand cfg t = .error .invalidImmediate := by
  simp [parseOperand, hr, h]

/-- A literal is the immediate it denotes, wrapped, if it is in range or IMM_RANGE_POLICY wraps it
(30_encoding.md R57, decision D4). -/
theorem parseImm_of_literal {z : Int} (h : literalValue cfg.plusSign t = some z) :
    parseImm cfg t =
      if (-2147483648 ≤ z ∧ z ≤ 2147483647) ∨ cfg.immRange = .wrap then some (wrap32 z) else none := by
  have hfits : fitsWord z = true ↔ -2147483648 ≤ z ∧ z ≤ 2147483647 := by simp [fitsWord]
  simp only [parseImm, h, hfits]
  by_cases hz : -2147483648 ≤ z ∧ z ≤ 2147483647
  · simp [hz]
  · cases cfg.immRange <;> simp [hz]

theorem parseImm_of_no_literal (h : literalValue cfg.plusSign t = none) : parseImm cfg t = none := by
  simp [parseImm, h]

variable {op : Opcode} {d : Token} {dst : RegIdx}

@[simp] theorem parseFields_nil : parseFields cfg op [] = .error .malformedLine := rfl

theorem parseFields_of_malformed_dst (h : parseReg d = none) (rest : List Token) :
    parseFields cfg op (d :: rest) = .error .invalidRegister := by
  simp [parseFields, h]

theorem parseFields_of_dst (h : parseReg d = some dst) :
    parseFields cfg op [d] = .ok (Instr.ofFields op dst .none) := by
  simp [parseFields, h]

theorem parseFields_of_malformed_operand (h : parseReg d = some dst) {e : ParseFault}
    (ho : parseOperand cfg t = .error e) (extra : List Token) :
    parseFields cfg op (d :: t :: extra) = .error e := by
  simp [parseFields, h, ho]

theorem parseFields_of_operand (h : parseReg d = some dst) {o : Operand} (ho : parseOperand cfg t = .ok o)
    {extra : List Token} (hextra : extra = [] ∨ cfg.extraToken = .ignore) :
    parseFields cfg op (d :: t :: extra) = .ok (Instr.ofFields op dst o) := by
  simp [parseFields, h, ho, hextra]

theorem parseFields_of_extra (h : parseReg d = some dst) {o : Operand} (ho : parseOperand cfg t = .ok o)
    {extra : List Token} (hne : extra ≠ []) (hextra : cfg.extraToken = .reject) :
    parseFields cfg op (d :: t :: extra) = .error .malformedLine := by
  simp [parseFields, h, ho, hne, hextra]

@[simp] theorem parseTokens_nil : parseTokens cfg [] = .error .malformedLine := rfl

theorem parseTokens_of_unknown_opcode (h : opcodeOfToken t = none) (rest : List Token) :
    parseTokens cfg (t :: rest) = .error .invalidOpcode := by
  simp [parseTokens, h]

theorem parseTokens_of_end (h : opcodeOfToken t = some .endOp) (rest : List Token) :
    parseTokens cfg (t :: rest) = .ok .endE := by
  simp [parseTokens, h]

theorem parseTokens_of_operation (hop : op ≠ .endOp) (h : opcodeOfToken t = some op) (rest : List Token) :
    parseTokens cfg (t :: rest) = parseFields cfg op rest := by
  cases op with
  | endOp => exact absurd rfl hop
  | mov | add | sub | mul | div => simp [parseTokens, h]

end

/-! ## When each parser accepts -/

/-- A register token begins with the register letter, so an operand token is tried as one. -/
theorem startsWithR_of_parseReg {t : Token} {r : RegIdx} (h : parseReg t = some r) : startsWithR t = true := by
  rcases parseReg_eq_some.1 h with ⟨l, -, hl⟩ | ⟨l, p, -, hl, -⟩ <;> rcases hl with rfl | rfl <;> rfl

theorem parseOperand_eq_ok {cfg : Config} {t : Token} {o : Operand} :
    parseOperand cfg t = .ok o ↔
      (∃ r, parseReg t = some r ∧ o = .reg r) ∨
      (∃ v, startsWithR t = false ∧ parseImm cfg t = some v ∧ o = .imm v) := by
  constructor
  · intro h
    cases hr : startsWithR t with
    | true =>
      cases hreg : parseReg t with
      | none => cases (parseOperand_of_malformed_reg hr hreg).symm.trans h
      | some r =>
        cases (parseOperand_of_starts_with_r hr hreg).symm.trans h
        exact .inl ⟨r, rfl, rfl⟩
    | false =>
      cases himm : parseImm cfg t with
      | none => cases (parseOperand_of_malformed_imm hr himm).symm.trans h
      | some v =>
        cases (parseOperand_of_imm hr himm).symm.trans h
        exact .inr ⟨v, rfl, rfl, rfl⟩
  · rintro (⟨r, hreg, rfl⟩ | ⟨v, hr, himm, rfl⟩)
    · exact parseOperand_of_starts_with_r (startsWithR_of_parseReg hreg) hreg
    · exact parseOperand_of_imm hr himm

theorem parseFields_eq_ok {cfg : Config} {op : Opcode} {ts : List Token} {i : Instr} :
    parseFields cfg op ts = .ok i ↔ ∃ d dst, parseReg d = some dst ∧
      ((ts = [d] ∧ i = Instr.ofFields op dst .none) ∨
       ∃ t o extra, ts = d :: t :: extra ∧ parseOperand cfg t = .ok o ∧ (extra = [] ∨ cfg.extraToken = .ignore) ∧
         i = Instr.ofFields op dst o) := by
  constructor
  · intro h
    match ts with
    | [] => cases h
    | d :: rest =>
      cases hd : parseReg d with
      | none => cases (parseFields_of_malformed_dst hd rest).symm.trans h
      | some dst =>
        refine ⟨d, dst, hd, ?_⟩
        match rest with
        | [] =>
          cases (parseFields_of_dst hd).symm.trans h
          exact .inl ⟨rfl, rfl⟩
        | t :: extra =>
          cases ho : parseOperand cfg t with
          | error e => cases (parseFields_of_malformed_operand hd ho extra).symm.trans h
          | ok o =>
            by_cases hextra : extra = [] ∨ cfg.extraToken = .ignore
            · cases (parseFields_of_operand hd ho hextra).symm.trans h
              exact .inr ⟨t, o, extra, rfl, ho, hextra, rfl⟩
            · simp [parseFields, hd, ho, hextra] at h
  · rintro ⟨d, dst, hd, ⟨rfl, rfl⟩ | ⟨t, o, extra, rfl, ho, hextra, rfl⟩⟩
    · exact parseFields_of_dst hd
    · exact parseFields_of_operand hd ho hextra

theorem parseTokens_eq_ok {cfg : Config} {ts : List Token} {i : Instr} :
    parseTokens cfg ts = .ok i ↔ ∃ t rest, ts = t :: rest ∧
      ((opcodeOfToken t = some .endOp ∧ i = .endE) ∨
       ∃ op, op ≠ .endOp ∧ opcodeOfToken t = some op ∧ parseFields cfg op rest = .ok i) := by
  constructor
  · intro h
    match ts with
    | [] => cases h
    | t :: rest =>
      refine ⟨t, rest, rfl, ?_⟩
      cases hop : opcodeOfToken t with
      | none => cases (parseTokens_of_unknown_opcode hop rest).symm.trans h
      | some op =>
        by_cases hend : op = .endOp
        · subst hend
          cases (parseTokens_of_end hop rest).symm.trans h
          exact .inl ⟨rfl, rfl⟩
        · exact .inr ⟨op, hend, rfl, (parseTokens_of_operation hend hop rest).symm.trans h⟩
  · rintro ⟨t, rest, rfl, ⟨hop, rfl⟩ | ⟨op, hend, hop, h⟩⟩
    · exact parseTokens_of_end hop rest
    · exact (parseTokens_of_operation hend hop rest).trans h

/-! ## The recommended parameters accept least -/

theorem literalValue_of_reject {t : Token} {z : Int} (h : literalValue .reject t = some z) (p : PlusSignPolicy) :
    literalValue p t = some z := by
  cases t with
  | nil => cases h
  | cons c ds =>
    by_cases hminus : c = '-'
    · rwa [hminus] at h ⊢
    · by_cases hplus : c = '+'
      · rw [hplus, literalValue_plus_reject] at h
        cases h
      · rwa [literalValue_of_no_sign _ hminus hplus] at h ⊢

/-- Under the recommended parameters an immediate is a literal of a word's value (30_encoding.md R57). -/
theorem parseImm_recommended {t : Token} {v : Word} :
    parseImm Config.recommended t = some v ↔ literalValue .reject t = some v.toInt := by
  constructor
  · intro h
    cases hz : literalValue .reject t with
    | none => cases (parseImm_of_no_literal (cfg := Config.recommended) hz).symm.trans h
    | some z =>
      have himm := parseImm_of_literal (cfg := Config.recommended) hz
      split at himm
      case isTrue hrange =>
        cases himm.symm.trans h
        obtain ⟨hlow, hhigh⟩ := hrange.resolve_right (by decide)
        rw [toInt_wrap32 hlow (by omega)]
      case isFalse => cases himm.symm.trans h
  · intro h
    rw [parseImm_of_literal (cfg := Config.recommended) h, if_pos, wrap32, BitVec.ofInt_toInt]
    exact .inl ⟨BitVec.le_toInt v, Int.le_of_lt_add_one BitVec.toInt_lt⟩

theorem parseImm_of_recommended {t : Token} {v : Word} (h : parseImm Config.recommended t = some v) (cfg : Config) :
    parseImm cfg t = some v := by
  rw [parseImm_recommended] at h
  rw [parseImm_of_literal (literalValue_of_reject h _), if_pos, wrap32, BitVec.ofInt_toInt]
  exact .inl ⟨BitVec.le_toInt v, Int.le_of_lt_add_one BitVec.toInt_lt⟩

theorem parseOperand_of_recommended {t : Token} {o : Operand} (h : parseOperand Config.recommended t = .ok o)
    (cfg : Config) : parseOperand cfg t = .ok o := by
  rw [parseOperand_eq_ok] at h ⊢
  refine h.imp_right ?_
  rintro ⟨v, hr, himm, rfl⟩
  exact ⟨v, hr, parseImm_of_recommended himm cfg, rfl⟩

theorem parseFields_of_recommended {op : Opcode} {ts : List Token} {i : Instr}
    (h : parseFields Config.recommended op ts = .ok i) (cfg : Config) : parseFields cfg op ts = .ok i := by
  obtain ⟨d, dst, hd, ⟨rfl, rfl⟩ | ⟨t, o, extra, rfl, ho, hextra, rfl⟩⟩ := parseFields_eq_ok.1 h
  · exact parseFields_of_dst hd
  · exact parseFields_of_operand hd (parseOperand_of_recommended ho cfg) (.inl (hextra.resolve_right (by decide)))

theorem parseChars_of_recommended {cs : List Char} {i : Instr} (h : parseChars Config.recommended cs = .ok i)
    (cfg : Config) : parseChars cfg cs = .ok i := by
  obtain ⟨t, rest, hts, ⟨hop, rfl⟩ | ⟨op, hend, hop, hfields⟩⟩ := parseTokens_eq_ok.1 h
  · rw [parseChars, hts, parseTokens_of_end hop]
  · rw [parseChars, hts, parseTokens_of_operation hend hop, parseFields_of_recommended hfields]

/-! ## The grammar's words -/

/-- A text that the tokeniser keeps as one token. -/
def IsWord (t : Token) : Prop := t ≠ [] ∧ ∀ c ∈ t, isBlank c = false

theorem isBlank_of_isDigit {c : Char} (h : c.isDigit = true) : isBlank c = false := by
  by_contra hc
  rcases (isBlank_iff c).1 (Bool.eq_true_of_not_eq_false hc) with rfl | rfl <;> cases h

theorem isRegLetter_of_isDigit {c : Char} (h : c.isDigit = true) : isRegLetter c = false := by
  by_contra hc
  have hletter : c = 'r' ∨ c = 'R' := by simpa [isRegLetter] using Bool.eq_true_of_not_eq_false hc
  rcases hletter with rfl | rfl <;> cases h

theorem isWord_of_opcodeSpelling {t : Token} {op : Opcode} (h : OpcodeSpelling t op) : IsWord t := by
  have hletters : mnemonicChars op ≠ [] ∧ ∀ c ∈ mnemonicChars op, isBlank c = false := by
    cases op <;> simp [mnemonicChars, isBlank]
  rw [← h] at hletters
  exact ⟨by simpa using hletters.1, fun c hc => (isBlank_toLower c).symm.trans
    (hletters.2 _ (List.mem_map_of_mem hc))⟩

theorem isWord_of_regSpelling {t : Token} {r : RegIdx} (h : RegSpelling t r) : IsWord t := by
  have hdigit : isBlank (Char.ofNat (48 + r.toNat)) = false := by
    clear h
    revert r
    decide
  have hletter {l : Char} (hl : l = 'r' ∨ l = 'R') : isBlank l = false := by
    rcases hl with rfl | rfl <;> rfl
  have hmark {p : Char} (hp : p = ',' ∨ p = ':') : isBlank p = false := by
    rcases hp with rfl | rfl <;> rfl
  cases h with
  | plain l r hl =>
    refine ⟨by simp, ?_⟩
    simp only [List.forall_mem_cons]
    exact ⟨hletter hl, hdigit, by simp⟩
  | punctuated l p r hl hp =>
    refine ⟨by simp, ?_⟩
    simp only [List.forall_mem_cons]
    exact ⟨hletter hl, hdigit, hmark hp, by simp⟩

/-- A literal begins with a digit or a minus sign. -/
theorem literalSpelling_cons {t : Token} {z : Int} (h : LiteralSpelling t z) :
    ∃ c ds, t = c :: ds ∧ (c = '-' ∨ c.isDigit = true) ∧ ∀ d ∈ ds, d.isDigit = true := by
  cases h with
  | nonneg ds hne hds =>
    obtain ⟨c, ds, rfl⟩ := List.exists_cons_of_ne_nil hne
    rw [List.forall_mem_cons] at hds
    exact ⟨c, ds, rfl, .inr hds.1, hds.2⟩
  | neg ds hne hds => exact ⟨_, ds, rfl, .inl rfl, hds⟩

theorem isWord_of_literalSpelling {t : Token} {z : Int} (h : LiteralSpelling t z) : IsWord t := by
  obtain ⟨c, ds, rfl, hc, hds⟩ := literalSpelling_cons h
  refine ⟨by simp, ?_⟩
  rw [List.forall_mem_cons]
  refine ⟨?_, fun d hd => isBlank_of_isDigit (hds d hd)⟩
  rcases hc with rfl | hc
  · rfl
  · exact isBlank_of_isDigit hc

theorem startsWithR_of_literalSpelling {t : Token} {z : Int} (h : LiteralSpelling t z) : startsWithR t = false := by
  obtain ⟨c, ds, rfl, hc, -⟩ := literalSpelling_cons h
  rcases hc with rfl | hc
  · rfl
  · exact isRegLetter_of_isDigit hc

/-- Without the plus sign the literals are those of the grammar (30_encoding.md R57, R59). -/
theorem literalValue_reject_eq_some {t : Token} {z : Int} :
    literalValue .reject t = some z ↔ LiteralSpelling t z := by
  constructor
  · intro h
    cases t with
    | nil => cases h
    | cons c ds =>
      by_cases hminus : c = '-'
      · rw [hminus, literalValue_minus, Option.map_eq_some_iff] at h
        obtain ⟨n, hn, rfl⟩ := h
        obtain ⟨hne, hds, rfl⟩ := digitsValue_eq_some.1 hn
        exact hminus ▸ .neg ds hne hds
      · by_cases hplus : c = '+'
        · rw [hplus, literalValue_plus_reject] at h
          cases h
        · rw [literalValue_of_no_sign _ hminus hplus, Option.map_eq_some_iff] at h
          obtain ⟨n, hn, rfl⟩ := h
          obtain ⟨hne, hds, rfl⟩ := digitsValue_eq_some.1 hn
          exact .nonneg _ hne hds
  · intro h
    cases h with
    | nonneg ds hne hds =>
      obtain ⟨c, ds, rfl⟩ := List.exists_cons_of_ne_nil hne
      have hc : c.isDigit = true := hds c List.mem_cons_self
      rw [literalValue_of_no_sign _ (by rintro rfl; cases hc) (by rintro rfl; cases hc),
        digitsValue_eq_some.2 ⟨hne, hds, rfl⟩, Option.map_some]
    | neg ds hne hds => rw [literalValue_minus, digitsValue_eq_some.2 ⟨hne, hds, rfl⟩, Option.map_some]

theorem isWord_of_operandSpelling {t : Token} {o : Operand} (h : OperandSpelling t o) : IsWord t := by
  cases h with
  | reg r hr => exact isWord_of_regSpelling hr
  | imm v hv => exact isWord_of_literalSpelling hv

/-- Under the recommended parameters the operand tokens are those of the grammar. -/
theorem parseOperand_recommended {t : Token} {o : Operand} :
    parseOperand Config.recommended t = .ok o ↔ OperandSpelling t o := by
  rw [parseOperand_eq_ok]
  constructor
  · rintro (⟨r, hr, rfl⟩ | ⟨v, -, hv, rfl⟩)
    · exact .reg t r (parseReg_eq_some.1 hr)
    · exact .imm t v (literalValue_reject_eq_some.1 (parseImm_recommended.1 hv))
  · intro h
    cases h with
    | reg r hr => exact .inl ⟨r, parseReg_eq_some.2 hr, rfl⟩
    | imm v hv =>
      exact .inr ⟨v, startsWithR_of_literalSpelling hv,
        parseImm_recommended.2 (literalValue_reject_eq_some.2 hv), rfl⟩

/-! ## The grammar's lines -/

/-- The tokens after a word that begins a line. -/
theorem tokens_leading_word {ws t rest : List Char} (hws : Blank ws) (ht : IsWord t)
    (hrest : ∀ c, rest.head? = some c → isBlank c = true) : tokens (ws ++ (t ++ rest)) = t :: tokens rest := by
  rw [tokens_blank_append hws, tokens_word_append ht.1 ht.2 hrest]

/-- A gap begins with a blank. -/
theorem head?_gap {ws : List Char} (hne : ws ≠ []) (hws : Blank ws) (cs : List Char) :
    ∀ c, (ws ++ cs).head? = some c → isBlank c = true := by
  obtain ⟨b, ws, rfl⟩ := List.exists_cons_of_ne_nil hne
  intro c hc
  cases hc
  exact (isBlank_iff b).2 (hws b List.mem_cons_self)

theorem head?_blank {ws : List Char} (hws : Blank ws) : ∀ c, ws.head? = some c → isBlank c = true :=
  fun c hc => (isBlank_iff c).2 (hws c (List.mem_of_mem_head? hc))

/-- Past the end of a word, the next token stands after a gap. -/
theorem tokens_eq_cons_after_word {rest : List Char} (hrest : ∀ c, rest.head? = some c → isBlank c = true)
    {d : Token} {ts : List Token} (h : tokens rest = d :: ts) :
    ∃ ws rest', rest = ws ++ (d ++ rest') ∧ ws ≠ [] ∧ Blank ws ∧
      (∀ c, rest'.head? = some c → isBlank c = true) ∧ tokens rest' = ts := by
  obtain ⟨ws, rest', rfl, hws, hne, hd, hrest', hts⟩ := tokens_eq_cons h
  refine ⟨ws, rest', rfl, ?_, hws, hrest', hts⟩
  rintro rfl
  obtain ⟨c, d, rfl⟩ := List.exists_cons_of_ne_nil hne
  have hblank : isBlank c = true := hrest c rfl
  rw [hd c List.mem_cons_self] at hblank
  cases hblank

theorem tokens_of_blank {ws : List Char} (hws : Blank ws) : tokens ws = [] := by
  simpa using tokens_append_trailing hws []

/-- The tokens of a line of the grammar are its words, and the parsers accept each. -/
theorem parseChars_of_lineSpelling {cs : List Char} {i : Instr} (h : LineSpelling cs i) :
    parseChars Config.recommended cs = .ok i := by
  cases h with
  | endLine ws t rest hws ht hrest =>
    rw [parseChars, List.append_assoc, tokens_leading_word hws (isWord_of_opcodeSpelling ht)
      fun c hc => (isBlank_iff c).2 (hrest c hc)]
    exact parseTokens_of_end (opcodeOfToken_eq_some.2 ht) _
  | noOperand ws t ws₁ d ws₂ op dst hop hws ht hne₁ hws₁ hd hws₂ =>
    have htokens : tokens (ws ++ (t ++ (ws₁ ++ (d ++ ws₂)))) = [t, d] := by
      rw [tokens_leading_word hws (isWord_of_opcodeSpelling ht) (head?_gap hne₁ hws₁ _),
        tokens_leading_word hws₁ (isWord_of_regSpelling hd) (head?_blank hws₂), tokens_of_blank hws₂]
    simp only [parseChars, List.append_assoc, htokens]
    rw [parseTokens_of_operation hop (opcodeOfToken_eq_some.2 ht), parseFields_of_dst (parseReg_eq_some.2 hd)]
  | withOperand ws t ws₁ d ws₂ o ws₃ op dst operand hop hws ht hne₁ hws₁ hd hne₂ hws₂ ho hws₃ =>
    have htokens : tokens (ws ++ (t ++ (ws₁ ++ (d ++ (ws₂ ++ (o ++ ws₃)))))) = [t, d, o] := by
      rw [tokens_leading_word hws (isWord_of_opcodeSpelling ht) (head?_gap hne₁ hws₁ _),
        tokens_leading_word hws₁ (isWord_of_regSpelling hd) (head?_gap hne₂ hws₂ _),
        tokens_leading_word hws₂ (isWord_of_operandSpelling ho) (head?_blank hws₃), tokens_of_blank hws₃]
    simp only [parseChars, List.append_assoc, htokens]
    rw [parseTokens_of_operation hop (opcodeOfToken_eq_some.2 ht),
      parseFields_of_operand (parseReg_eq_some.2 hd) (parseOperand_recommended.2 ho) (.inl rfl)]

/-- A line that is accepted under the recommended parameters is built of its tokens and the blanks between them as the
grammar says. -/
theorem lineSpelling_of_parseChars {cs : List Char} {i : Instr} (h : parseChars Config.recommended cs = .ok i) :
    LineSpelling cs i := by
  obtain ⟨t, ts, htokens, hcases⟩ := parseTokens_eq_ok.1 h
  obtain ⟨ws, rest, rfl, hws, -, -, hrest, rfl⟩ := tokens_eq_cons htokens
  rcases hcases with ⟨ht, rfl⟩ | ⟨op, hop, ht, hfields⟩
  · rw [← List.append_assoc]
    exact .endLine ws t rest hws (opcodeOfToken_eq_some.1 ht) fun c hc => (isBlank_iff c).1 (hrest c hc)
  have ht := opcodeOfToken_eq_some.1 ht
  obtain ⟨d, dst, hd, ⟨hrestTokens, rfl⟩ | ⟨o, operand, extra, hrestTokens, ho, hextra, rfl⟩⟩ :=
    parseFields_eq_ok.1 hfields
  · obtain ⟨ws₁, ws₂, rfl, hne₁, hws₁, -, hnil⟩ := tokens_eq_cons_after_word hrest hrestTokens
    have hline := LineSpelling.noOperand ws t ws₁ d ws₂ op dst hop hws ht hne₁ hws₁ (parseReg_eq_some.1 hd)
      (blank_of_tokens_nil hnil)
    simpa only [List.append_assoc] using hline
  · obtain rfl : extra = [] := hextra.resolve_right (by decide)
    obtain ⟨ws₁, rest₁, rfl, hne₁, hws₁, hrest₁, hrest₁Tokens⟩ := tokens_eq_cons_after_word hrest hrestTokens
    obtain ⟨ws₂, ws₃, rfl, hne₂, hws₂, -, hnil⟩ := tokens_eq_cons_after_word hrest₁ hrest₁Tokens
    have hline := LineSpelling.withOperand ws t ws₁ d ws₂ o ws₃ op dst operand hop hws ht hne₁ hws₁
      (parseReg_eq_some.1 hd) hne₂ hws₂ (parseOperand_recommended.1 ho) (blank_of_tokens_nil hnil)
    simpa only [List.append_assoc] using hline

/-! ## The canonical spelling -/

theorem opcodeSpelling_mnemonicChars (op : Opcode) : OpcodeSpelling (mnemonicChars op) op := by
  cases op <;> rfl

theorem regSpelling_regChars (r : RegIdx) : RegSpelling (regChars r) r := .plain 'r' r (.inl rfl)

/-- The destination as canonically written before an operand. -/
theorem regSpelling_regChars_comma (r : RegIdx) : RegSpelling (regChars r ++ [',']) r :=
  .punctuated 'r' ',' r (.inl rfl) (.inl rfl)

theorem literalSpelling_toDigits (n : Nat) : LiteralSpelling (Nat.toDigits 10 n) n := by
  have h := LiteralSpelling.nonneg (Nat.toDigits 10 n) Nat.toDigits_ne_nil
    fun c hc => Nat.isDigit_of_mem_toDigits (by decide) (by decide) hc
  rwa [Nat.ofDigitChars_ten_toDigits] at h

theorem literalSpelling_literalChars (z : Int) : LiteralSpelling (literalChars z) z := by
  unfold literalChars
  split
  case isTrue hneg =>
    have h := LiteralSpelling.neg (Nat.toDigits 10 z.natAbs) Nat.toDigits_ne_nil
      fun c hc => Nat.isDigit_of_mem_toDigits (by decide) (by decide) hc
    rwa [Nat.ofDigitChars_ten_toDigits, Int.ofNat_natAbs_of_nonpos hneg.le, Int.neg_neg] at h
  case isFalse hpos =>
    have h := literalSpelling_toDigits z.natAbs
    rwa [Int.natAbs_of_nonneg (not_lt.1 hpos)] at h

theorem canonicalChars_endE : canonicalChars .endE = mnemonicChars .endOp := rfl

theorem canonicalChars_of_operation {i : Instr} (h : i.opcode ≠ .endOp) :
    canonicalChars i = mnemonicChars i.opcode ++ ' ' :: (regChars i.dst ++ operandChars i.operand) := by
  unfold canonicalChars
  cases hop : i.opcode with
  | endOp => exact absurd hop h
  | mov | add | sub | mul | div => rfl

theorem blank_nil : Blank [] := by simp [Blank]

theorem blank_space : Blank [' '] := by simp [Blank]

/-- An operation with an operand, in the canonical layout: single spaces and a comma after the destination. -/
theorem lineSpelling_operand {op : Opcode} (h : op ≠ .endOp) (dst : RegIdx) {o : List Char} {operand : Operand}
    (ho : OperandSpelling o operand) :
    LineSpelling (mnemonicChars op ++ ' ' :: (regChars dst ++ ',' :: ' ' :: o)) (Instr.ofFields op dst operand) := by
  have hline := LineSpelling.withOperand [] _ [' '] _ [' '] o [] op dst operand h blank_nil
    (opcodeSpelling_mnemonicChars op) (by simp) blank_space (regSpelling_regChars_comma dst) (by simp) blank_space ho
    blank_nil
  simpa using hline

/-- The canonical spelling is a line of the grammar. -/
theorem lineSpelling_canonicalChars (i : Instr) : LineSpelling (canonicalChars i) i := by
  by_cases hend : i.opcode = .endOp
  · rw [Instr.opcode_eq_endOp.1 hend, canonicalChars_endE]
    simpa using LineSpelling.endLine [] _ [] blank_nil (opcodeSpelling_mnemonicChars .endOp) (by simp)
  rw [canonicalChars_of_operation hend]
  suffices hfields : LineSpelling (mnemonicChars i.opcode ++ ' ' :: (regChars i.dst ++ operandChars i.operand))
      (Instr.ofFields i.opcode i.dst i.operand) by rwa [Instr.ofFields_self] at hfields
  cases i.operand with
  | none =>
    simpa [operandChars] using LineSpelling.noOperand [] _ [' '] _ [] i.opcode i.dst hend blank_nil
      (opcodeSpelling_mnemonicChars _) (by simp) blank_space (regSpelling_regChars _) blank_nil
  | reg r => exact lineSpelling_operand hend i.dst (.reg _ r (regSpelling_regChars r))
  | imm v => exact lineSpelling_operand hend i.dst (.imm _ v (literalSpelling_literalChars v.toInt))

/-! ## Literals under every setting of the parameters -/

/-- A line in the canonical layout is parsed as its operand is. -/
theorem parseChars_operand_line (cfg : Config) {op : Opcode} (h : op ≠ .endOp) (dst : RegIdx) {o : Token}
    (ho : IsWord o) :
    parseChars cfg (mnemonicChars op ++ ' ' :: (regChars dst ++ ',' :: ' ' :: o)) =
      (parseOperand cfg o).map (Instr.ofFields op dst) := by
  have hmnemonic := opcodeSpelling_mnemonicChars op
  have hdst := regSpelling_regChars_comma dst
  have htokens : tokens (mnemonicChars op ++ ' ' :: (regChars dst ++ ',' :: ' ' :: o)) =
      [mnemonicChars op, regChars dst ++ [','], o] := by
    have hword {t : Token} (ht : IsWord t) : tokens t = [t] := tokens_word ht.1 ht.2
    rw [tokens_append_blank rfl, List.append_cons (regChars dst), tokens_append_blank rfl,
      hword (isWord_of_opcodeSpelling hmnemonic), hword (isWord_of_regSpelling hdst), hword ho]
    rfl
  rw [parseChars, htokens, parseTokens_of_operation h (opcodeOfToken_eq_some.2 hmnemonic)]
  cases hparse : parseOperand cfg o with
  | error e => exact parseFields_of_malformed_operand (parseReg_eq_some.2 hdst) hparse []
  | ok v => exact parseFields_of_operand (parseReg_eq_some.2 hdst) hparse (.inl rfl)

/-- An operand token that denotes an integer, by IMM_RANGE_POLICY (30_encoding.md R57, decision D4). -/
theorem parseOperand_of_literal {cfg : Config} {t : Token} {z : Int} (hr : startsWithR t = false)
    (h : literalValue cfg.plusSign t = some z) :
    parseOperand cfg t = if (-2147483648 ≤ z ∧ z ≤ 2147483647) ∨ cfg.immRange = .wrap
      then .ok (.imm (wrap32 z)) else .error .invalidImmediate := by
  have himm := parseImm_of_literal h
  split at himm
  case isTrue hz => rw [if_pos hz, parseOperand_of_imm hr himm]
  case isFalse hz => rw [if_neg hz, parseOperand_of_malformed_imm hr himm]

theorem isWord_plus_toDigits (n : Nat) : IsWord ('+' :: Nat.toDigits 10 n) := by
  refine ⟨by simp, ?_⟩
  rw [List.forall_mem_cons]
  exact ⟨rfl, (isWord_of_literalSpelling (literalSpelling_toDigits n)).2⟩

theorem literalChars_natCast (n : Nat) : literalChars n = Nat.toDigits 10 n := by
  simp [literalChars]

theorem digitsValue_toDigits (n : Nat) : digitsValue (Nat.toDigits 10 n) = some n :=
  digitsValue_eq_some.2 ⟨Nat.toDigits_ne_nil,
    fun c hc => Nat.isDigit_of_mem_toDigits (by decide) (by decide) hc, Nat.ofDigitChars_ten_toDigits.symm⟩

/-! ## The port -/

/-- The values 0 to 5 are the opcodes' (30_encoding.md R42). -/
theorem ofBits_eq_none_iff (b : BitVec 4) : Opcode.ofBits b = none ↔ 6 ≤ b.toNat := by
  revert b
  decide

theorem acceptPort_of_bits {p : PortInstr} {op : Opcode} (h : Opcode.ofBits p.op = some op) :
    acceptPort p = .ok (Instr.ofFields op p.dst p.operand) := by
  rw [acceptPort, h]

end Sys2Proof.Machine

namespace Sys2Proof.Proofs
open Sys2Proof.Machine

/-- Settles O48: from the literal up, each parser accepts under all settings what it accepts under these. -/
theorem permissivePoliciesOnlyAcceptMore : Obligations.PermissivePoliciesOnlyAcceptMore :=
  fun cfg _ _ h => parseChars_of_recommended h cfg

/-- Settles O44: the tokens of a line of the grammar are its words, and an accepted line is built of its tokens. -/
theorem acceptedLinesAreTheGrammar : Obligations.AcceptedLinesAreTheGrammar :=
  fun _ _ => ⟨lineSpelling_of_parseChars, parseChars_of_lineSpelling⟩

/-- Settles O43: the canonical spelling is a line of the grammar, and the other settings accept those lines alike. -/
theorem canonicalLinesParseBack : Obligations.CanonicalLinesParseBack := by
  intro cfg i
  rw [parseLine, canonicalLine, String.toList_ofList]
  exact parseChars_of_recommended (parseChars_of_lineSpelling (lineSpelling_canonicalChars i)) cfg

/-- Settles O47, by what each parser answers. -/
theorem firstOffendingTokenNamesTheFault : Obligations.FirstOffendingTokenNamesTheFault := by
  intro cfg t d o rest
  refine ⟨parseTokens_nil, fun h => parseTokens_of_unknown_opcode h rest, fun h => parseTokens_of_end h rest,
    fun op hop ht => ?_⟩
  simp only [parseTokens_of_operation hop ht]
  refine ⟨parseFields_nil, fun hd => parseFields_of_malformed_dst hd _, fun dst hd => ⟨parseFields_of_dst hd, ?_⟩⟩
  exact ⟨fun hr ho => parseFields_of_malformed_operand hd (parseOperand_of_malformed_reg hr ho) rest,
    fun hr ho => parseFields_of_malformed_operand hd (parseOperand_of_malformed_imm hr ho) rest,
    fun _ ho => parseFields_of_extra hd ho, fun _ ho => parseFields_of_operand hd ho⟩

/-- Settles O49: the line's one literal is read by its sign and then by IMM_RANGE_POLICY. -/
theorem literalsAreReadInRangeOrByPolicy : Obligations.LiteralsAreReadInRangeOrByPolicy := by
  intro cfg op dst hop
  refine ⟨fun z => ?signed, fun n => ?plus⟩
  case signed =>
    have hz := literalSpelling_literalChars z
    have hvalue := literalValue_of_reject (literalValue_reject_eq_some.2 hz) cfg.plusSign
    rw [parseChars_operand_line cfg hop dst (isWord_of_literalSpelling hz),
      parseOperand_of_literal (startsWithR_of_literalSpelling hz) hvalue, apply_ite (Except.map _)]
    rfl
  case plus =>
    rw [literalChars_natCast, parseChars_operand_line cfg hop dst (isWord_plus_toDigits n)]
    cases hplus : cfg.plusSign with
    | reject =>
      have himm : parseImm cfg ('+' :: Nat.toDigits 10 n) = none :=
        parseImm_of_no_literal (by rw [hplus, literalValue_plus_reject])
      rw [parseOperand_of_malformed_imm rfl himm, if_neg (by simp)]
      rfl
    | accept =>
      have hvalue : literalValue cfg.plusSign ('+' :: Nat.toDigits 10 n) = some (n : Int) := by
        rw [hplus, literalValue_plus_accept, digitsValue_toDigits, Option.map_some]
      have hrange : (-2147483648 ≤ (n : Int) ∧ (n : Int) ≤ 2147483647) ↔ n ≤ 2147483647 := by omega
      rw [parseOperand_of_literal rfl hvalue, apply_ite (Except.map _)]
      simp only [hrange, true_and, wrap32, Except.map]

/-- Settles O50: the opcode decides alone, and `end` drops the other fields. -/
theorem portChecksTheOpcodeAlone : Obligations.PortChecksTheOpcodeAlone := by
  intro p
  refine ⟨fun h => ?unassigned, fun h => ?assigned, fun h => ?zero⟩
  case unassigned => rw [acceptPort, (ofBits_eq_none_iff p.op).2 h]
  case assigned =>
    cases hop : Opcode.ofBits p.op with
    | none => exact absurd ((ofBits_eq_none_iff p.op).1 hop) (by omega)
    | some op => exact ⟨op, Opcode.bits_of_ofBits hop, acceptPort_of_bits hop⟩
  case zero => exact acceptPort_of_bits (op := .endOp) (by rw [h]; rfl)

end Sys2Proof.Proofs
end
